-- ==== Sys2Proof/Word.lean ====
section
/-! DEFINITION. Word.lean: the words and entry types of the block (00_scope.md R10, R11; 10_state.md R20). -/

namespace Sys2Proof

/-- A command or response word: 32 bits, delivered whole, bit 0 the least significant (R10, R60, R67). -/
abbrev Word := BitVec 32

/-- A byte of the Byte Array and an 8-bit colour channel (R25, R61). -/
abbrev Byte := BitVec 8

/-- A palette index 0..7; every value is valid (R16). -/
abbrev PaletteIndex := BitVec 3

/-- A 3-character bit-string, its leftmost character the most significant bit (R11, R22). -/
abbrev BitString := BitVec 3

/-- The DATA field of a response word (R67). -/
abbrev ResponseData := BitVec 28

/-- The 11-bit counters ICNT and BCNT, 0..2047 (R24, R26, R32). -/
abbrev Counter := Fin 2048

/-- Character `k` of a bit-string, counted from 0 at the leftmost character (R11). -/
abbrev BitString.char (s : BitString) (k : Nat) : Bool := s.getMsbD k

end Sys2Proof
end

