-- ==== Sys2Proof/Config.lean ====
section
/-! DEFINITION. Config.lean: the configuration of the block, its default tables and the values the spec leaves free
(00_scope.md R8; 40_quantizer.md R101 to R105; 93_implementation_defined.md S1, S3). -/

namespace Sys2Proof

/-- The scale of the reference channels (R105). -/
inductive RefMode where
  | nibble      -- "each reference channel is its 4-bit nibble value, NOT expanded to 8-bit"
  | replicated  -- the nibble replicated into both halves of a byte
  deriving DecidableEq, Repr

/-- A 12-bit reference value: 4 bits per channel (R22). -/
structure Rgb12 where
  r : BitVec 4
  g : BitVec 4
  b : BitVec 4
  deriving DecidableEq, Repr

/-- The configuration of a block, fixed for its lifetime (R8, R21). -/
structure Config where
  /-- PALETTE_RGB: the reference value of each palette index (R22). -/
  paletteRgb : Vector Rgb12 8
  /-- PALETTE_BITS: the bit-string of each palette index (R22). -/
  paletteBits : Vector BitString 8
  /-- REF_MODE (R105). -/
  refMode : RefMode
  /-- HAS_RECON: whether the optional RECON is present (R150). -/
  hasRecon : Bool
  deriving DecidableEq, Repr

/-- PALETTE_RGB[p]. -/
def Config.rgb (c : Config) (p : PaletteIndex) : Rgb12 := c.paletteRgb.get p.toFin

/-- PALETTE_BITS[p]. -/
def Config.bits (c : Config) (p : PaletteIndex) : BitString := c.paletteBits.get p.toFin

/-- The default PALETTE_RGB: the corners the colour names denote (R101).
Only red is the source's; the spec marks the other seven as general knowledge (log entry 6). -/
def Config.defaultPaletteRgb : Vector Rgb12 8 :=
  #v[⟨0x0, 0x0, 0x0⟩, ⟨0xF, 0x0, 0x0⟩, ⟨0xF, 0x0, 0xF⟩, ⟨0xF, 0xF, 0x0⟩,
     ⟨0x0, 0xF, 0x0⟩, ⟨0x0, 0xF, 0xF⟩, ⟨0x0, 0x0, 0xF⟩, ⟨0xF, 0xF, 0xF⟩]

/-- FREE VALUE: the bit-string of palette index `p` for the six colours whose bit-string is OPEN (R102, S3).
DESIGN CHOICE (log entry 5): the reset configuration holds these uninterpreted constants. -/
opaque Config.openBitString : Nat → BitString

/-- FREE VALUE: what an unspecified entry `addr` of the buffer of `width`-bit entries holds (R220, S1).
DESIGN CHOICE (log entry 4): an uninterpreted constant; no state a run reaches reads it. -/
opaque Config.unspecifiedEntry (width addr : Nat) : BitVec width

/-- FREE VALUE: the index RECON writes for a code that no entry of PALETTE_BITS has.
DESIGN CHOICE (log entry 9): an admitted configuration with RECON has no such code (R9, R150). -/
opaque Config.unmappedIndex : BitString → PaletteIndex

/-- PALETTE_BITS of the reset configuration: black "000", white "111", the other six OPEN (R102). -/
def Config.openPaletteBits : Vector BitString 8 :=
  #v[0b000, openBitString 1, openBitString 2, openBitString 3,
     openBitString 4, openBitString 5, openBitString 6, 0b111]

/-- The default configuration (R8): default PALETTE_RGB, OPEN PALETTE_BITS, NIBBLE, no RECON. -/
def Config.default : Config where
  paletteRgb := defaultPaletteRgb
  paletteBits := openPaletteBits
  refMode := .nibble
  hasRecon := false

/-- ILLUS_BITS: an illustrative table "never as a claim about the device" (R103). -/
def Config.illustrativeBits : Vector BitString 8 :=
  #v[0b000, 0b100, 0b101, 0b110, 0b010, 0b011, 0b001, 0b111]

end Sys2Proof
end

