-- ==== Sys2Proof/Syntax.lean ====
section
/-! DEFINITION. Syntax.lean: the commands (30_encoding.md R61, R63), one constructor per row of opcode_table.json,
and the palette colours (00_scope.md R16). -/

namespace Sys2Proof

/-- A command of the block: the operand fields are unsigned and as wide as the format gives them (R61, R62). -/
inductive Instr where
  /-- NOP, format Z (R160). -/
  | nop
  /-- QUANT r, g, b, format Q (R104). -/
  | quant (r g b : Byte)
  /-- PUSHI idx, format I (R161). -/
  | pushi (idx : PaletteIndex)
  /-- PUSHB byte, format Y (R162). -/
  | pushb (byte : Byte)
  /-- ENC, format Z (R120). -/
  | enc
  /-- DEC, format Z (R140). -/
  | dec
  /-- RECON, format Z, present only with HAS_RECON (R150). -/
  | recon
  /-- CLR mask, format M (R164). -/
  | clr (mask : BitVec 3)
  /-- RDI addr, format A10 (R172). -/
  | rdi (addr : BitVec 10)
  /-- RDB addr, format A9 (R173). -/
  | rdb (addr : BitVec 9)
  /-- RDD addr, format A12 (R174). -/
  | rdd (addr : BitVec 12)
  /-- RDSTAT, format Z (R175). -/
  | rdstat
  deriving DecidableEq, Repr

/-- A Palette Color symbol (R15). -/
inductive Colour where
  | black | red | magenta | yellow | green | cyan | blue | white
  deriving DecidableEq, Repr

/-- The palette index of a colour: its position in the source's iteration order (R16, R69). -/
def Colour.index : Colour → PaletteIndex
  | .black => 0
  | .red => 1
  | .magenta => 2
  | .yellow => 3
  | .green => 4
  | .cyan => 5
  | .blue => 6
  | .white => 7

end Sys2Proof
end

