-- ==== Sys2Proof/WellFormed.lean ====
section
/-! DEFINITION. WellFormed.lean: which configurations are admitted (00_scope.md R9) and which commands a
configuration has (30_encoding.md R64). Operand fields are in range by their types (R66). -/

namespace Sys2Proof

/-- R9 (a): the entries of PALETTE_RGB are pairwise distinct. -/
abbrev Config.DistinctRgb (c : Config) : Prop :=
  ∀ p q : PaletteIndex, c.rgb p = c.rgb q → p = q

/-- R9 (b): PALETTE_RGB[1] is red, (0xF, 0x0, 0x0). -/
abbrev Config.RedFixed (c : Config) : Prop := c.rgb 1 = ⟨0xF, 0x0, 0x0⟩

/-- R9 (c): black is "000" and white is "111". -/
abbrev Config.BlackWhiteFixed (c : Config) : Prop := c.bits 0 = 0b000 ∧ c.bits 7 = 0b111

/-- The entries of PALETTE_BITS are pairwise distinct. -/
abbrev Config.DistinctBits (c : Config) : Prop :=
  ∀ p q : PaletteIndex, c.bits p = c.bits q → p = q

/-- R9: the configurations a model admits. -/
abbrev Config.Admitted (c : Config) : Prop :=
  c.DistinctRgb ∧ c.RedFixed ∧ c.BlackWhiteFixed ∧ (c.hasRecon = true → c.DistinctBits)

/-- A command is well formed for a configuration when the configuration has it: RECON needs HAS_RECON (R64). -/
def Instr.wf (c : Config) : Instr → Bool
  | .recon => c.hasRecon
  | .nop | .quant _ _ _ | .pushi _ | .pushb _ | .enc | .dec | .clr _ | .rdi _ | .rdb _ | .rdd _ | .rdstat => true

end Sys2Proof
end

