-- ==== Sys2Proof/Decode.lean ====
section
/-! DEFINITION. Decode.lean: the decoder, total on all 2^32 words, and the encoder (30_encoding.md R60 to R66, R71). -/

namespace Sys2Proof

/-- The opcodes of R63: OP = cmd[31:28]. -/
inductive Opcode where
  | nop | quant | pushi | pushb | enc | dec | recon | clr | rdi | rdb | rdd | rdstat
  deriving DecidableEq, Repr

/-- A row of the opcode map: `mask` has a 1 at every OP bit and every reserved bit of the row's format and
`pattern` holds the row's OP with 0 in every reserved bit (R64). -/
structure OpcodeRow where
  op : Opcode
  mask : Word
  pattern : Word
  deriving DecidableEq, Repr

/-- The opcode map (R63, opcode_table.json). -/
def opcodeTable : List OpcodeRow :=
  [⟨.nop,    0xFFFFFFFF, 0x00000000⟩,
   ⟨.quant,  0xFF000000, 0x10000000⟩,
   ⟨.pushi,  0xFFFFFFF8, 0x20000000⟩,
   ⟨.pushb,  0xFFFFFF00, 0x30000000⟩,
   ⟨.enc,    0xFFFFFFFF, 0x40000000⟩,
   ⟨.dec,    0xFFFFFFFF, 0x50000000⟩,
   ⟨.recon,  0xFFFFFFFF, 0x60000000⟩,
   ⟨.clr,    0xFFFFFFF8, 0x70000000⟩,
   ⟨.rdi,    0xFFFFFC00, 0x80000000⟩,
   ⟨.rdb,    0xFFFFFE00, 0x90000000⟩,
   ⟨.rdd,    0xFFFFF000, 0xA0000000⟩,
   ⟨.rdstat, 0xFFFFFFFF, 0xB0000000⟩]

/-- `(cmd & mask) == match` (R64). -/
def OpcodeRow.matches (row : OpcodeRow) (cmd : Word) : Bool := cmd &&& row.mask == row.pattern

/-- The unsigned field of `width` bits of a word whose lowest bit is `lo` (R10). -/
def field (cmd : Word) (lo width : Nat) : BitVec width := cmd.extractLsb' lo width

/-- Operand assembly (R62). -/
def Opcode.operands (cmd : Word) : Opcode → Instr
  | .nop => .nop
  | .quant => .quant (field cmd 16 8) (field cmd 8 8) (field cmd 0 8)
  | .pushi => .pushi (field cmd 0 3)
  | .pushb => .pushb (field cmd 0 8)
  | .enc => .enc
  | .dec => .dec
  | .recon => .recon
  | .clr => .clr (field cmd 0 3)
  | .rdi => .rdi (field cmd 0 10)
  | .rdb => .rdb (field cmd 0 9)
  | .rdd => .rdd (field cmd 0 12)
  | .rdstat => .rdstat

/-- The command a word is, by the first matching row of the opcode map; none: the word is ILLEGAL (R64, R65).
RECON decodes whatever the configuration; that it is ILLEGAL without HAS_RECON is R150's own first check. -/
def decode (cmd : Word) : Option Instr :=
  (opcodeTable.find? (·.matches cmd)).map (·.op.operands cmd)

/-- R64's decoder with the configuration: the RECON row counts as no row when HAS_RECON is false. -/
def decodeFor (c : Config) (cmd : Word) : Option Instr := (decode cmd).filter (·.wf c)

/-- The word of a command (R61, R68): OP, then zeros, then the operand fields. -/
def encode : Instr → Word
  | .nop => 0x0#4 ++ 0#28
  | .quant r g b => 0x1#4 ++ 0#4 ++ r ++ g ++ b
  | .pushi idx => 0x2#4 ++ 0#25 ++ idx
  | .pushb byte => 0x3#4 ++ 0#20 ++ byte
  | .enc => 0x4#4 ++ 0#28
  | .dec => 0x5#4 ++ 0#28
  | .recon => 0x6#4 ++ 0#28
  | .clr mask => 0x7#4 ++ 0#25 ++ mask
  | .rdi addr => 0x8#4 ++ 0#18 ++ addr
  | .rdb addr => 0x9#4 ++ 0#19 ++ addr
  | .rdd addr => 0xA#4 ++ 0#16 ++ addr
  | .rdstat => 0xB#4 ++ 0#28

/-- The word the host means by the number `w` of `nbits` bits (log entry 11): bits at and above `nbits` are 0. -/
def tableWord (nbits w : Nat) : Word := BitVec.ofNat 32 (w % 2 ^ nbits)

/-- The command this decoder reads from the table's number `w`; commands are 32 bits long and no longer (R60). -/
def decodeTableWord (nbits w : Nat) : Option Instr :=
  if nbits ≤ 32 then decode (tableWord nbits w) else none

end Sys2Proof
end

