-- ==== Sys2Proof/Machine/State.lean ====
section
/-! DEFINITION. State.lean: everything the spec gives the machine, as plain data (10_state.md R20, R32; 70_reset_and_hazards.md R220),
with the host's two queues (R229). -/

namespace Sys2Proof.Machine

/-- A buffer of `w`-bit entries: (address, value) pairs in one canonical form (`Memory.wf`).
An address that is not listed is an unspecified entry, R32's `none`. The byte buffer's is a list of Host.Cell. -/
abbrev Memory (w : Nat) := List (Nat × BitVec w)

/-- The error codes of a response (R200). -/
inductive ErrorCode where
  | ok | illegal | length | range | noData
  deriving DecidableEq, Repr

/-- What the host does to the block between two commands' effects: it issues a command word (R60) or asserts reset (R221). -/
inductive HostEvent where
  | command (cmd : Word)
  | reset
  deriving DecidableEq, Repr

/-- The machine stops with no fault: an error is a response word and the next command is performed normally
(R201), and every command completes (R228). The type has no constructor, so no step faults. -/
inductive Fault
  deriving DecidableEq, Repr

/-- Why the model gives a step no meaning. -/
inductive Refusal where
  /-- Raised by exec's arm of a command with no meaning in the model; no arm does so. Safe. -/
  | notModelled (mnemonic : String)
  /-- Raised by `step` when the configuration fails R9: "A model refuses a configuration that fails any of (a) to (d)". Safe. -/
  | inadmissibleConfiguration
  deriving DecidableEq, Repr

/-- The state of the block (R20, R32) and of its host interface (R229). -/
structure State where
  /-- PALETTE_RGB, PALETTE_BITS, REF_MODE, HAS_RECON: constant (R21). -/
  cfg : Config
  /-- IBUF: 1024 entries of 3 bits (R23). -/
  ibuf : Memory 3
  /-- ICNT: 11 bits, saturating at 2047 (R24). -/
  icnt : Counter
  /-- BBUF: 384 entries of 8 bits (R25). -/
  bbuf : Memory 8
  /-- BCNT: 11 bits, saturating at 2047 (R26). -/
  bcnt : Counter
  /-- DBUF: 3072 entries of 1 bit (R27). -/
  dbuf : Memory 1
  /-- DVALID, the only flag (R28). -/
  dvalid : Bool
  /-- The model's own: the host's pending events, oldest first (R48, R221; log entry 2). -/
  inputs : List HostEvent
  /-- The model's own: the response words returned so far, oldest first (R67, R229; log entry 3). -/
  responses : List Word
  deriving DecidableEq, Repr

/-- The machine right after reset with the default configuration (R220, R8): counters and flag 0, no buffer entry
written, no event pending and no response returned. -/
def State.reset : State where
  cfg := Config.default
  ibuf := []
  icnt := 0
  bbuf := []
  bcnt := 0
  dbuf := []
  dvalid := false
  inputs := []
  responses := []

end Sys2Proof.Machine
end

