-- ==== Sys2Proof/Machine/Ops.lean ====
section
/-! DEFINITION. Ops.lean: the named operations over the buffers, the counters, the palette tables and the response
(00_scope.md R12, R13; 10_state.md R24, R26; 20_memory.md R40 to R46; 30_encoding.md R67, R80; 60_exceptions.md R200, R201). -/

namespace Sys2Proof.Machine

/-- The outcome of a meaning and of a step. -/
abbrev Result := Host.Outcome State Fault Refusal

/-- NPIX, the entries of the index buffer (R8). -/
abbrev npix : Nat := 1024
/-- NBYTE, the entries of the byte buffer (R8). -/
abbrev nbyte : Nat := 384
/-- NBIT, the entries of the bit buffer (R8). -/
abbrev nbit : Nat := 3072

/-! ### Buffers -/

/-- The value an address holds, none where the entry is unspecified (R32). -/
def Memory.lookup {w : Nat} : Memory w → Nat → Option (BitVec w)
  | [], _ => none
  | (b, v) :: rest, a => if a = b then some v else Memory.lookup rest a

/-- One whole-entry read (R12, R44). An unspecified entry reads as a free value (log entry 4). -/
def Memory.entry {w : Nat} (m : Memory w) (a : Nat) : BitVec w :=
  (Memory.lookup m a).getD (Config.unspecifiedEntry w a)

/-- One whole-entry write (R12, R44). -/
def Memory.write {w : Nat} : Memory w → Nat → BitVec w → Memory w
  | [], a, v => [(a, v)]
  | (b, u) :: rest, a, v =>
    if a < b then (a, v) :: (b, u) :: rest
    else if a = b then (a, v) :: rest
    else (b, u) :: Memory.write rest a v

/-- A whole buffer of `size` entries written at once (R44). Irreducible to the elaborator, so that comparing two states
never unrolls a buffer; the kernel evaluates it. -/
@[irreducible] def Memory.fill {w : Nat} (size : Nat) (f : Nat → BitVec w) : Memory w :=
  (List.range size).map fun a => (a, f a)

/-- Addresses strictly rising and at or above `lo`, the last below `size`. -/
def Memory.risingFrom {w : Nat} (size : Nat) : Nat → Memory w → Bool
  | _, [] => true
  | lo, (a, _) :: rest => decide (lo ≤ a) && decide (a < size) && Memory.risingFrom size (a + 1) rest

/-- The canonical form of a buffer of `size` entries: addresses strictly rising and inside the address space (R40).
An unlisted entry has no value, so no listed entry equals what an unlisted one holds. -/
def Memory.wf {w : Nat} (size : Nat) (m : Memory w) : Bool := Memory.risingFrom size 0 m

/-- IBUF[i] (R12). -/
def State.index (s : State) (i : Nat) : PaletteIndex := Memory.entry s.ibuf i

/-- BBUF[n] (R12). -/
def State.byte (s : State) (n : Nat) : Byte := Memory.entry s.bbuf n

/-- DBUF[j] (R12). -/
def State.bit (s : State) (j : Nat) : BitVec 1 := Memory.entry s.dbuf j

/-! ### Counters -/

/-- A counter advanced by one push: it saturates at 2047 (R24, R26). -/
def bump (c : Counter) : Counter := ⟨min (c.val + 1) 2047, by omega⟩

/-- PUSHI's write: the entry at the counter when there is room, then the counter (R161, R50). -/
def State.pushIndex (s : State) (idx : PaletteIndex) : State :=
  { s with
    ibuf := if s.icnt.val < npix then Memory.write s.ibuf s.icnt.val idx else s.ibuf
    icnt := bump s.icnt }

/-- PUSHB's write: the entry at the counter when there is room, then the counter (R162, R50). -/
def State.pushByte (s : State) (byte : Byte) : State :=
  { s with
    bbuf := if s.bcnt.val < nbyte then Memory.write s.bbuf s.bcnt.val byte else s.bbuf
    bcnt := bump s.bcnt }

/-! ### Response -/

/-- ERR of an error (R200). -/
def ErrorCode.code : ErrorCode → BitVec 4
  | .ok => 0x0
  | .illegal => 0x1
  | .length => 0x2
  | .range => 0x3
  | .noData => 0x4

/-- The response word: ERR in bits 31:28, DATA in bits 27:0 (R67). -/
def responseWord (e : ErrorCode) (data : ResponseData) : Word := e.code ++ data

/-- ERR of a response word (R67). -/
def responseErr (resp : Word) : BitVec 4 := field resp 28 4

/-- DATA of a response word (R67). -/
def responseDataOf (resp : Word) : ResponseData := field resp 0 28

/-- The response word returned to the host. -/
def State.answer (s : State) (resp : Word) : State := { s with responses := s.responses ++ [resp] }

/-- `respond(OK, data)`: commits the writes that made `s` and returns the response (R13, R80). -/
def respond (data : ResponseData) (s : State) : Result := .next (s.answer (responseWord .ok data))

/-- `raise E`: the one way an error is taken. `s` is the state the command found: no write is kept, no mode,
mask or control changes, and the response is ERR = E with DATA = 0 (R13, R80, R201, R205). -/
def raise (e : ErrorCode) (s : State) : Result := .next (s.answer (responseWord e 0))

/-! ### Reset -/

/-- The reset event on a state (R220, R221): counters and flag 0, buffer contents unspecified (log entry 10), the
configuration unchanged, no response returned; the host's queues are not the block's. -/
def State.afterReset (s : State) : State :=
  { s with ibuf := [], icnt := 0, bbuf := [], bcnt := 0, dbuf := [], dvalid := false }

end Sys2Proof.Machine
end

