-- ==== Sys2Proof/Machine/BitplaneDecode.lean ====
section
/-! DEFINITION. BitplaneDecode.lean: DEC and RECON (42_bitplane_decode.md R140 to R144, R150 to R153). -/

namespace Sys2Proof.Machine

/-- Bit j that DEC extracts: bit 7 - (j mod 8) of byte j div 8 (R142). -/
def extractedBit (s : State) (j : Nat) : BitVec 1 :=
  BitVec.ofBool ((s.byte (j / 8)).getLsbD (7 - j % 8))

/-- DEC's writes: all 3072 bits, and DVALID (R140). -/
def State.decoded (s : State) : State :=
  { s with dbuf := Memory.fill nbit (extractedBit s), dvalid := true }

/-- DEC: LENGTH unless exactly 384 bytes are held (R140, R141). -/
def execDec (s : State) : Result :=
  if s.bcnt.val ≠ nbyte then raise .length s else respond 0 s.decoded

/-- The code of pixel i: its plane-k character is stream bit 1024k + i (R151). -/
def pixelCode (s : State) (i : Nat) : BitString := s.bit i ++ s.bit (npix + i) ++ s.bit (2 * npix + i)

/-- The palette index whose bit-string is `code`: unique in an admitted configuration with RECON (R150, R9);
for a code no entry has, a free value (log entry 9). -/
def indexOfCode (c : Config) (code : BitString) : PaletteIndex :=
  ([0, 1, 2, 3, 4, 5, 6, 7].find? fun p => c.bits p == code).getD (Config.unmappedIndex code)

/-- RECON's writes: all 1024 indices, and ICNT (R150). -/
def State.reconstructed (s : State) : State :=
  { s with ibuf := Memory.fill npix (fun i => indexOfCode s.cfg (pixelCode s i)), icnt := 1024 }

/-- RECON: ILLEGAL where it is absent, NODATA where no DEC output is held (R150, R203). -/
def execRecon (s : State) : Result :=
  if s.cfg.hasRecon = false then raise .illegal s
  else if s.dvalid = false then raise .noData s
  else respond 0 s.reconstructed

end Sys2Proof.Machine
end

