-- ==== Sys2Proof/Machine/BitplaneEncode.lean ====
section
/-! DEFINITION. BitplaneEncode.lean: ENC (41_bitplane_encode.md R120 to R127). -/

namespace Sys2Proof.Machine

/-- Bit j of the stream: character j div 1024 of the bit-string of pixel j mod 1024 (R122). -/
def streamBit (s : State) (j : Nat) : Bool :=
  (s.cfg.bits (s.index (j % npix))).char (j / npix)

/-- The value of chunk n of a stream: bit 8n is the most significant (R123). -/
def packByte (stream : Nat → Bool) (n : Nat) : Byte :=
  BitVec.ofNat 8 ((List.range 8).map fun t => (stream (8 * n + t)).toNat * 2 ^ (7 - t)).sum

/-- ENC's writes: all 384 bytes, and BCNT (R120). -/
def State.encoded (s : State) : State :=
  { s with bbuf := Memory.fill nbyte (packByte (streamBit s)), bcnt := 384 }

/-- ENC: LENGTH unless exactly 1024 indices were pushed (R120, R121). -/
def execEnc (s : State) : Result :=
  if s.icnt.val ≠ npix then raise .length s else respond 0 s.encoded

end Sys2Proof.Machine
end

