-- ==== Sys2Proof/Machine/Flags.lean ====
section
/-! DEFINITION. Flags.lean: the flag DVALID and the status word (10_state.md R28, R31; 43_host_interface.md R175). -/

namespace Sys2Proof.Machine

/-- The REF_MODE bit of the status word: 0 for NIBBLE, 1 for REPLICATED (R31). -/
def refModeBit : RefMode → BitVec 1
  | .nibble => 0
  | .replicated => 1

/-- The status word: ICNT 10:0, BCNT 21:11, DVALID 22, HAS_RECON 23, REF_MODE 24, zeros 27:25 (R31). -/
def statusWord (s : State) : ResponseData :=
  0#3 ++ refModeBit s.cfg.refMode ++ BitVec.ofBool s.cfg.hasRecon ++ BitVec.ofBool s.dvalid
    ++ BitVec.ofNat 11 s.bcnt.val ++ BitVec.ofNat 11 s.icnt.val

end Sys2Proof.Machine
end

