-- ==== Sys2Proof/Machine/Operands.lean ====
section
/-! DEFINITION. Operands.lean: the checks on address operands (30_encoding.md R66; 43_host_interface.md R172 to R174), the
mask operand of CLR (R164) and the reference scale and distance of a colour operand (40_quantizer.md R105 to R107). -/

namespace Sys2Proof.Machine

/-! ### Address operands -/

/-- Entry i of IBUF is written exactly when i < min(ICNT, 1024) (R24). -/
def State.indexWritten (s : State) (a : Nat) : Bool := decide (a < min s.icnt.val npix)

/-- Entry n of BBUF is written exactly when n < min(BCNT, 384) (R26). -/
def State.byteWritten (s : State) (a : Nat) : Bool := decide (a < min s.bcnt.val nbyte)

/-- A byte-space address operand is in range (R66, R173). -/
def byteInRange (a : Nat) : Bool := decide (a < nbyte)

/-- A bit-space address operand is in range (R66, R174). -/
def bitInRange (a : Nat) : Bool := decide (a < nbit)

/-! ### Mask operand -/

/-- CLR's effect: mask bit 0 clears ICNT, bit 1 BCNT, bit 2 DVALID; contents are not erased (R164). -/
def State.clear (s : State) (mask : BitVec 3) : State :=
  { s with
    icnt := if mask.getLsbD 0 then 0 else s.icnt
    bcnt := if mask.getLsbD 1 then 0 else s.bcnt
    dvalid := if mask.getLsbD 2 then false else s.dvalid }

/-! ### Colour operand -/

/-- sc(n): the reference channel on the input's scale (R105). -/
def scale : RefMode → BitVec 4 → Nat
  | .nibble, n => n.toNat
  | .replicated, n => 17 * n.toNat

/-- One channel's squared difference, an exact integer (R106). -/
def channelDistance (mode : RefMode) (c : Byte) (ref : BitVec 4) : Int :=
  ((c.toNat : Int) - scale mode ref) * ((c.toNat : Int) - scale mode ref)

/-- dist(p): the squared Euclidean distance of (r, g, b) from palette index p (R106). -/
def distance (c : Config) (r g b : Byte) (p : PaletteIndex) : Int :=
  channelDistance c.refMode r (c.rgb p).r + channelDistance c.refMode g (c.rgb p).g
    + channelDistance c.refMode b (c.rgb p).b

/-- One turn of QUANT's scan: replace the best only when strictly nearer (R104, R107). -/
def nearer (c : Config) (r g b : Byte) (best p : PaletteIndex) : PaletteIndex :=
  if distance c r g b p < distance c r g b best then p else best

/-- The palette index nearest to (r, g, b), scanned in palette iteration order (R104, R107). -/
def nearest (c : Config) (r g b : Byte) : PaletteIndex :=
  [1, 2, 3, 4, 5, 6, 7].foldl (nearer c r g b) 0

end Sys2Proof.Machine
end

