-- ==== Sys2Proof/Machine/HostCommands.lean ====
section
/-! DEFINITION. HostCommands.lean: NOP, CLR, PUSHI, PUSHB, RDI, RDB, RDD, RDSTAT (43_host_interface.md R160 to R175). -/

namespace Sys2Proof.Machine

/-- NOP: does nothing and answers OK (R160). -/
def execNop (s : State) : Result := respond 0 s

/-- CLR: clears the selected counts and flag (R164). -/
def execClr (mask : BitVec 3) (s : State) : Result := respond 0 (s.clear mask)

/-- PUSHI: appends one palette index (R161). -/
def execPushi (idx : PaletteIndex) (s : State) : Result := respond 0 (s.pushIndex idx)

/-- PUSHB: appends one byte (R162). -/
def execPushb (byte : Byte) (s : State) : Result := respond 0 (s.pushByte byte)

/-- RDI: answers one index, NODATA where it is not written; every address is in range (R172). -/
def execRdi (addr : BitVec 10) (s : State) : Result :=
  if s.indexWritten addr.toNat then respond ((s.index addr.toNat).setWidth 28) s else raise .noData s

/-- RDB: answers one byte; RANGE is checked before NODATA (R173). -/
def execRdb (addr : BitVec 9) (s : State) : Result :=
  if byteInRange addr.toNat = false then raise .range s
  else if s.byteWritten addr.toNat then respond ((s.byte addr.toNat).setWidth 28) s
  else raise .noData s

/-- RDD: answers one bit; RANGE is checked before NODATA (R174). -/
def execRdd (addr : BitVec 12) (s : State) : Result :=
  if bitInRange addr.toNat = false then raise .range s
  else if s.dvalid = false then raise .noData s
  else respond ((s.bit addr.toNat).setWidth 28) s

/-- RDSTAT: answers the status word (R175). -/
def execRdstat (s : State) : Result := respond (statusWord s) s

end Sys2Proof.Machine
end

