-- ==== Sys2Proof/Machine/Quantizer.lean ====
section
/-! DEFINITION. Quantizer.lean: QUANT (40_quantizer.md R100 to R110). -/

namespace Sys2Proof.Machine

/-- QUANT: answers the nearest palette index in DATA[2:0] and changes no state (R104). -/
def execQuant (r g b : Byte) (s : State) : Result := respond ((nearest s.cfg r g b).setWidth 28) s

/-- R109's threshold on a channel value under the default PALETTE_RGB. -/
def channelThreshold : RefMode → Nat
  | .nibble => 8
  | .replicated => 128

/-- R109's closed form of QUANT under the default PALETTE_RGB. -/
def closedFormIndex (mode : RefMode) (r g b : Byte) : PaletteIndex :=
  match decide (channelThreshold mode ≤ r.toNat), decide (channelThreshold mode ≤ g.toNat),
      decide (channelThreshold mode ≤ b.toNat) with
  | false, false, false => 0
  | true, false, false => 1
  | true, false, true => 2
  | true, true, false => 3
  | false, true, false => 4
  | false, true, true => 5
  | false, false, true => 6
  | true, true, true => 7

end Sys2Proof.Machine
end

