-- ==== Sys2Proof/Machine/Dispatch.lean ====
section
/-! DEFINITION. Dispatch.lean: one arm per command. -/

namespace Sys2Proof.Machine

/-- The effect of a command on the state it finds. -/
def exec (i : Instr) (s : State) : Host.Outcome State Fault Refusal :=
  match i with
  | .nop => Sys2Proof.Machine.execNop s
  | .quant r g b => Sys2Proof.Machine.execQuant r g b s
  | .pushi idx => Sys2Proof.Machine.execPushi idx s
  | .pushb byte => Sys2Proof.Machine.execPushb byte s
  | .enc => Sys2Proof.Machine.execEnc s
  | .dec => Sys2Proof.Machine.execDec s
  | .recon => Sys2Proof.Machine.execRecon s
  | .clr mask => Sys2Proof.Machine.execClr mask s
  | .rdi addr => Sys2Proof.Machine.execRdi addr s
  | .rdb addr => Sys2Proof.Machine.execRdb addr s
  | .rdd addr => Sys2Proof.Machine.execRdd addr s
  | .rdstat => Sys2Proof.Machine.execRdstat s

end Sys2Proof.Machine
end

