-- ==== Sys2Proof/Machine/Frontend.lean ====
section
/-! DEFINITION. Frontend.lean: what the block does with a command word and with a host event (20_memory.md R45, R48;
30_encoding.md R64, R65; 70_reset_and_hazards.md R221). -/

namespace Sys2Proof.Machine

/-- One command word performed: the command it decodes to, or ILLEGAL (R64, R65). -/
def performWord (cmd : Word) (s : State) : Result :=
  match decode cmd with
  | some i => exec i s
  | none => raise .illegal s

/-- One host event on a state whose queue no longer holds it (R221). -/
def takeEvent (e : HostEvent) (s : State) : Result :=
  match e with
  | .command cmd => performWord cmd s
  | .reset => .next s.afterReset

/-- The oldest pending event taken; with none pending the block is idle and its state persists (R48, R212). -/
def takeOldest (s : State) : Result :=
  match s.inputs with
  | [] => .next s
  | e :: rest => takeEvent e { s with inputs := rest }

/-- The command word of the table's number placed as the host's next event (log entry 11). -/
def State.withNextCommand (s : State) (cmd : Word) : State := { s with inputs := .command cmd :: s.inputs }

end Sys2Proof.Machine
end

