-- ==== Sys2Proof/Machine/Step.lean ====
section
/-! DEFINITION. Step.lean: one step of the block, and the placing of the next command (20_memory.md R48; 70_reset_and_hazards.md R222). -/

namespace Sys2Proof.Machine

/-- One step: an inadmissible configuration is refused (R9, R222); else the oldest pending event is taken (R48). -/
def step (s : State) : Host.Outcome State Fault Refusal :=
  if s.cfg.Admitted then takeOldest s else .refused .inadmissibleConfiguration

/-- `s` with the word the table numbers `w` as the host's next command (log entry 11). -/
def State.withFetchWord (s : State) (nbits w : Nat) : State := s.withNextCommand (tableWord nbits w)

end Sys2Proof.Machine
end

