-- ==== Sys2Proof/Machine/Assembly.lean ====
section
/-! DEFINITION. Assembly.lean: the assembly syntax, the colour names and the pseudo-instructions (30_encoding.md R68, R69, R70):
host-side notation over the commands, from a line of text to command words (log entry 12). -/

namespace Sys2Proof.Machine

/-! ### Lines -/

/-- An index operand: a number or a colour name (R68, R69). -/
inductive IndexOperand where
  | number (n : Nat)
  | colour (c : Colour)
  deriving DecidableEq, Repr

/-- The letters of a mask operand: I (1), B (2), D (4) (R68). -/
inductive BufferLetter where
  | I | B | D
  deriving DecidableEq, Repr

/-- A mask operand: a number or a list of letters (R68). -/
inductive MaskOperand where
  | number (n : Nat)
  | letters (ls : List BufferLetter)
  deriving DecidableEq, Repr

/-- One command as written (R68); the operands are numbers of any size, as a source text gives them. -/
inductive AsmCommand where
  | nop
  | quant (r g b : Nat)
  | quant24 (rgb : Nat)
  | pushi (idx : IndexOperand)
  | pushb (byte : Nat)
  | enc
  | dec
  | recon
  | clr (mask : MaskOperand)
  | rdi (addr : Nat)
  | rdb (addr : Nat)
  | rdd (addr : Nat)
  | rdstat
  deriving DecidableEq, Repr

/-- One line: a command or a pseudo-instruction (R70). -/
inductive AsmLine where
  | command (c : AsmCommand)
  | clrAll
  | rep (n : Nat) (c : AsmCommand)
  | filli (idx : IndexOperand)
  | loadi (ps : List IndexOperand)
  | loadb (bs : List Nat)
  deriving DecidableEq, Repr

/-! ### Assembling -/

/-- An operand in a field of `w` bits; an operand that does not fit is refused (R68). -/
def fit (w n : Nat) : Option (BitVec w) := if n < 2 ^ w then some (BitVec.ofNat w n) else none

/-- The index of an index operand (R68, R69). -/
def IndexOperand.value : IndexOperand → Option PaletteIndex
  | .number n => fit 3 n
  | .colour c => some c.index

/-- The mask bit of a letter (R68). -/
def BufferLetter.mask : BufferLetter → BitVec 3
  | .I => 0b001
  | .B => 0b010
  | .D => 0b100

/-- The mask of a mask operand (R68). -/
def MaskOperand.value : MaskOperand → Option (BitVec 3)
  | .number n => fit 3 n
  | .letters ls => some (ls.foldl (fun m l => m ||| l.mask) 0)

/-- The command a written command stands for; none: the assembler refuses it (R68). -/
def AsmCommand.assemble : AsmCommand → Option Instr
  | .nop => some .nop
  | .quant r g b => do some (.quant (← fit 8 r) (← fit 8 g) (← fit 8 b))
  | .quant24 rgb => do
    let v ← fit 24 rgb
    some (.quant (v.extractLsb' 16 8) (v.extractLsb' 8 8) (v.extractLsb' 0 8))
  | .pushi idx => do some (.pushi (← idx.value))
  | .pushb byte => do some (.pushb (← fit 8 byte))
  | .enc => some .enc
  | .dec => some .dec
  | .recon => some .recon
  | .clr mask => do some (.clr (← mask.value))
  | .rdi addr => do some (.rdi (← fit 10 addr))
  | .rdb addr => do some (.rdb (← fit 9 addr))
  | .rdd addr => do some (.rdd (← fit 12 addr))
  | .rdstat => some .rdstat

/-- The commands a line expands to (R70); none: the assembler refuses it. -/
def AsmLine.assemble : AsmLine → Option (List Instr)
  | .command c => c.assemble.map ([·])
  | .clrAll => some [.clr 7]
  | .rep n c => if n = 0 then none else c.assemble.map (List.replicate n)
  | .filli idx => idx.value.map fun p => .clr 1 :: List.replicate 1024 (.pushi p)
  | .loadi ps => if ps = [] then none else ps.mapM fun p => p.value.map Instr.pushi
  | .loadb bs => if bs = [] then none else bs.mapM fun b => (fit 8 b).map Instr.pushb

/-- The command words of a line. -/
def AsmLine.words (l : AsmLine) : Option (List Word) := l.assemble.map (·.map encode)

/-! ### Text -/

/-- A line of text, as its characters. -/
abbrev Text := List Char

/-- A blank between the parts of a line. -/
def isBlank (c : Char) : Bool := c == ' ' || c == '\t'

/-- A text without the blanks around it. -/
def trim (t : Text) : Text := ((t.dropWhile isBlank).reverse.dropWhile isBlank).reverse

/-- The parts of a text between the separators. -/
def splitText (sep : Char) : Text → List Text
  | [] => [[]]
  | c :: cs =>
    match splitText sep cs with
    | [] => [[c]]
    | t :: ts => if c = sep then [] :: t :: ts else (c :: t) :: ts

/-- The value of a digit, decimal or hexadecimal. -/
def digitValue (c : Char) : Option Nat :=
  if '0' ≤ c ∧ c ≤ '9' then some (c.toNat - '0'.toNat)
  else if 'a' ≤ c ∧ c ≤ 'f' then some (c.toNat - 'a'.toNat + 10)
  else if 'A' ≤ c ∧ c ≤ 'F' then some (c.toNat - 'A'.toNat + 10)
  else none

/-- A run of digits in a base, continuing from `acc`. -/
def parseDigits (base : Nat) : Nat → Text → Option Nat
  | acc, [] => some acc
  | acc, c :: cs =>
    match digitValue c with
    | none => none
    | some d => if d < base then parseDigits base (base * acc + d) cs else none

/-- A number: decimal, or hexadecimal with prefix 0x (R68). -/
def parseNumber (t : Text) : Option Nat :=
  match t with
  | [] => none
  | ['0', 'x'] => none
  | '0' :: 'x' :: ds => parseDigits 16 0 ds
  | ds => parseDigits 10 0 ds

/-- The colour names (R69). -/
def colourNames : List (Text × Colour) :=
  [(['b', 'l', 'a', 'c', 'k'], .black), (['r', 'e', 'd'], .red), (['m', 'a', 'g', 'e', 'n', 't', 'a'], .magenta),
   (['y', 'e', 'l', 'l', 'o', 'w'], .yellow), (['g', 'r', 'e', 'e', 'n'], .green), (['c', 'y', 'a', 'n'], .cyan),
   (['b', 'l', 'u', 'e'], .blue), (['w', 'h', 'i', 't', 'e'], .white)]

/-- An index operand of a text. -/
def parseIndex (t : Text) : Option IndexOperand :=
  match colourNames.lookup t with
  | some c => some (.colour c)
  | none => (parseNumber t).map .number

/-- A letter of a mask operand. -/
def parseLetter : Text → Option BufferLetter
  | ['I'] => some .I
  | ['B'] => some .B
  | ['D'] => some .D
  | _ => none

/-- A mask operand of a text: a number or a |-list of letters (R68). -/
def parseMask (t : Text) : Option MaskOperand :=
  match parseNumber t with
  | some n => some (.number n)
  | none => ((splitText '|' t).mapM fun p => parseLetter (trim p)).map .letters

/-- The mnemonic and the text after it. -/
def splitMnemonic (t : Text) : Text × Text :=
  let t := trim t
  (t.takeWhile (!isBlank ·), trim (t.dropWhile (!isBlank ·)))

/-- The operands of a text: separated by commas, none in an empty text (R68). -/
def operandTexts (t : Text) : List Text := if t = [] then [] else (splitText ',' t).map trim

/-- A command of a text (R68). -/
def parseCommand (t : Text) : Option AsmCommand :=
  let (m, rest) := splitMnemonic t
  match m, operandTexts rest with
  | ['N', 'O', 'P'], [] => some .nop
  | ['Q', 'U', 'A', 'N', 'T'], [r, g, b] => do some (.quant (← parseNumber r) (← parseNumber g) (← parseNumber b))
  | ['Q', 'U', 'A', 'N', 'T'], [rgb] => (parseNumber rgb).map .quant24
  | ['P', 'U', 'S', 'H', 'I'], [p] => (parseIndex p).map .pushi
  | ['P', 'U', 'S', 'H', 'B'], [b] => (parseNumber b).map .pushb
  | ['E', 'N', 'C'], [] => some .enc
  | ['D', 'E', 'C'], [] => some .dec
  | ['R', 'E', 'C', 'O', 'N'], [] => some .recon
  | ['C', 'L', 'R'], [k] => (parseMask k).map .clr
  | ['R', 'D', 'I'], [a] => (parseNumber a).map .rdi
  | ['R', 'D', 'B'], [a] => (parseNumber a).map .rdb
  | ['R', 'D', 'D'], [a] => (parseNumber a).map .rdd
  | ['R', 'D', 'S', 'T', 'A', 'T'], [] => some .rdstat
  | _, _ => none

/-- A line of a text: a pseudo-instruction (R70) or one command (R68). -/
def parseLine (t : Text) : Option AsmLine :=
  let (m, rest) := splitMnemonic t
  match m, operandTexts rest with
  | ['C', 'L', 'R'], [['A', 'L', 'L']] => some .clrAll
  | ['F', 'I', 'L', 'L', 'I'], [p] => (parseIndex p).map .filli
  | ['L', 'O', 'A', 'D', 'I'], ps => (ps.mapM parseIndex).map .loadi
  | ['L', 'O', 'A', 'D', 'B'], bs => (bs.mapM parseNumber).map .loadb
  | ['R', 'E', 'P'], _ => do
    let n ← parseNumber (trim (rest.takeWhile (· != ',')))
    some (.rep n (← parseCommand ((rest.dropWhile (· != ',')).drop 1)))
  | _, _ => (parseCommand t).map .command

/-- A line of text to its command words; none: the assembler refuses it. -/
def assembleText (t : Text) : Option (List Word) := (parseLine t).bind AsmLine.words

end Sys2Proof.Machine
end

