-- ==== Sys2Proof/Machine/HostProcedure.lean ====
section
/-! DEFINITION. HostProcedure.lean: the conventions the spec fixes for the host: pixel order, out-of-bounds black, and the
procedures that use the block (43_host_interface.md R180, R181, R182). The block itself reads none of it. -/

namespace Sys2Proof.Machine

/-! ### Pixel order -/

/-- The index of the pixel at column x, row y: column-major (R180). -/
def pixelIndex (x y : Nat) : Nat := 16 * x + y

/-- The column of pixel i (R180). -/
def pixelColumn (i : Nat) : Nat := i / 16

/-- The row of pixel i (R180). -/
def pixelRow (i : Nat) : Nat := i % 16

/-- The grid in the order the host visits it: all 16 rows of column 0, then of column 1, and so on (R180). -/
def gridOrder : List (Nat × Nat) := (List.range 64).flatMap fun x => (List.range 16).map fun y => (x, y)

/-! ### Images -/

/-- A 24-bit colour. -/
structure Rgb24 where
  r : Byte
  g : Byte
  b : Byte
  deriving DecidableEq, Repr

/-- An image as the host holds it; alpha is discarded by the host (R110). -/
structure Image where
  width : Nat
  height : Nat
  pixel : Nat → Nat → Rgb24

/-! ### Issuing commands -/

/-- The next command of a host, on the state its last command left. -/
def Result.andThen (r : Result) (f : State → Result) : Result :=
  match r with
  | .next s => f s
  | .fault e => .fault e
  | .refused e => .refused e

/-- One command issued and performed. -/
def issue (i : Instr) (s : State) : Result := performWord (encode i) s

/-- Commands issued in order. -/
def issueAll (is : List Instr) (s : State) : Result :=
  is.foldl (fun r i => Result.andThen r (issue i)) (.next s)

/-- DATA of the last response. -/
def lastData (s : State) : ResponseData := responseDataOf (s.responses.getLast?.getD 0)

/-- The host's part for grid position (x, y): black outside the image, else the index QUANT answers (R181, R182). -/
def pushPixel (img : Image) (x y : Nat) (s : State) : Result :=
  if img.width ≤ x ∨ img.height ≤ y then issue (.pushi Colour.black.index) s
  else Result.andThen (issue (.quant (img.pixel x y).r (img.pixel x y).g (img.pixel x y).b) s)
    fun t => issue (.pushi ((lastData t).setWidth 3)) t

/-- The 1024 pixels pushed in grid order (R182). -/
def pushFrame (img : Image) (s : State) : Result :=
  gridOrder.foldl (fun r xy => Result.andThen r (pushPixel img xy.1 xy.2)) (.next s)

/-- The image-to-bytes procedure: CLR ALL, the frame, ENC, then RDB 0..383 (R182). -/
def encodeImage (img : Image) (s : State) : Result :=
  Result.andThen (Result.andThen (Result.andThen (issue (.clr 7) s) (pushFrame img)) (issue .enc))
    (issueAll ((List.range 384).map fun n => .rdb (BitVec.ofNat 9 n)))

/-- graffitiData: DATA[7:0] of the last 384 responses (R182). -/
def graffitiData (s : State) : List Byte :=
  (s.responses.drop (s.responses.length - 384)).map fun resp => (responseDataOf resp).setWidth 8

/-- The inverse path: CLR B|D, the bytes pushed, DEC, then RDD 0..3071 (R182). -/
def decodeBytes (bytes : List Byte) (s : State) : Result :=
  issueAll (.clr 0b110 :: bytes.map Instr.pushb ++ .dec :: (List.range 3072).map fun j => .rdd (BitVec.ofNat 12 j)) s

end Sys2Proof.Machine
end

