-- ==== Sys2Proof/Safety.lean ====
section
/-! DEFINITION. Safety.lean: the invariant of the block, the states a run reaches, what two states have in common for the
block and what a host can tell apart (10_state.md R23 to R28, R32; 70_reset_and_hazards.md R220, R221, R229). -/

namespace Sys2Proof.Machine

/-- The invariant of the block: the configuration is admitted (R9), each buffer has its canonical form (R40), and every
entry a read may reach has been written, so that no read meets an unspecified entry (R32). -/
structure State.Inv (s : State) : Prop where
  admitted : s.cfg.Admitted
  ibuf_wf : Memory.wf npix s.ibuf = true
  bbuf_wf : Memory.wf nbyte s.bbuf = true
  dbuf_wf : Memory.wf nbit s.dbuf = true
  ibuf_written : ∀ i < min s.icnt.val npix, Memory.lookup s.ibuf i ≠ none
  bbuf_written : ∀ n < min s.bcnt.val nbyte, Memory.lookup s.bbuf n ≠ none
  dbuf_written : s.dvalid = true → ∀ j < nbit, Memory.lookup s.dbuf j ≠ none

/-- A block of configuration `c` right after its reset (R220): the state a run starts from. -/
def State.resetWith (c : Config) : State := { State.reset with cfg := c }

/-- The states a run reaches: from reset with an admitted configuration, the host adds an event or the block steps (R221, R229). -/
inductive Reachable : State → Prop where
  | reset {c : Config} (h : c.Admitted) : Reachable (State.resetWith c)
  | hostAdds {s : State} (e : HostEvent) (h : Reachable s) : Reachable { s with inputs := s.inputs ++ [e] }
  | steps {s t : State} (h : Reachable s) (hs : step s = .next t) : Reachable t

/-- The two states hold the same block: they differ at most in the host's queues (R20). -/
structure SameBlock (s t : State) : Prop where
  cfg : t.cfg = s.cfg
  ibuf : t.ibuf = s.ibuf
  icnt : t.icnt = s.icnt
  bbuf : t.bbuf = s.bbuf
  bcnt : t.bcnt = s.bcnt
  dbuf : t.dbuf = s.dbuf
  dvalid : t.dvalid = s.dvalid

/-- The host cannot tell the two blocks apart: equal configuration, counts and flag, and equal values in every entry a
command may read (R23, R25, R27, R221). -/
structure HostIndistinguishable (s t : State) : Prop where
  cfg : t.cfg = s.cfg
  icnt : t.icnt = s.icnt
  bcnt : t.bcnt = s.bcnt
  dvalid : t.dvalid = s.dvalid
  index : ∀ i < min s.icnt.val npix, t.index i = s.index i
  byte : ∀ n < min s.bcnt.val nbyte, t.byte n = s.byte n
  bit : s.dvalid = true → ∀ j < nbit, t.bit j = s.bit j

/-- The words of opcode `op`, whose operands take the low `bits` bits: a word with every reserved bit 0 is the command its
fields make, and every other one is no command (R61 to R65). -/
def DecodesAs (op : BitVec 4) (bits : Nat) (build : BitVec bits → Instr) : Prop :=
  ∀ w : Word, w.extractLsb' 28 4 = op →
    decode w = if w.extractLsb' bits (28 - bits) = 0 then some (build (w.extractLsb' 0 bits)) else none

/-- The words of opcode `op`, whose operands take the low `bits` bits: a word with every reserved bit 0 is performed as the
command its fields make, and every other one answers ILLEGAL and changes nothing (R61 to R65). -/
def PerformedAs (op : BitVec 4) (bits : Nat) (build : BitVec bits → Instr) : Prop :=
  ∀ (w : Word) (s : State), w.extractLsb' 28 4 = op →
    performWord w s = if w.extractLsb' bits (28 - bits) = 0 then exec (build (w.extractLsb' 0 bits)) s
      else .next { s with responses := s.responses ++ [0x10000000] }

/-- The state of an outcome that goes on. -/
def nextOf? (r : Result) : Option State :=
  match r with
  | .next s => some s
  | .fault _ => none
  | .refused _ => none

end Sys2Proof.Machine
end

