-- ==== Sys2Proof/Certificates/Slice0/Obligations.lean ====
section
/-! DEFINITION. Obligations.lean: the statements about the model, in the order of the spec's rules.
Each docstring names the rule it formalises. -/

open Sys2Proof Sys2Proof.Machine

/-! ### Encoding (30_encoding.md) -/

/-- R65: every command survives its encoding, with every operand at every value. -/
def Obligations.DecodeOfEncodeIsTheCommand : Prop := ∀ i : Instr, decode (encode i) = some i

/-- R65: a word that decodes is the word of the command it decodes to, so every word is exactly one command or ILLEGAL. -/
def Obligations.EncodeOfDecodedIsTheWord : Prop := ∀ (w : Word) (i : Instr), decode w = some i → encode i = w

/-- R64: at most one row of the opcode map matches a word. -/
def Obligations.AtMostOneRowMatches : Prop :=
  ∀ (w : Word), ∀ row ∈ opcodeTable, ∀ other ∈ opcodeTable,
    row.matches w = true → other.matches w = true → row = other

/-- R71: the encoding examples, assembled and decoded. -/
def Obligations.ExampleWordsDecodeAsWritten : Prop :=
  assembleText "QUANT 255, 0, 0".toList = some [0x10FF0000] ∧ decode 0x10FF0000 = some (.quant 255 0 0)
    ∧ assembleText "QUANT 0x808080".toList = some [0x10808080] ∧ decode 0x10808080 = some (.quant 0x80 0x80 0x80)
    ∧ assembleText "PUSHI white".toList = some [0x20000007] ∧ decode 0x20000007 = some (.pushi Colour.white.index)
    ∧ assembleText "PUSHB 0xA5".toList = some [0x300000A5] ∧ decode 0x300000A5 = some (.pushb 0xA5)
    ∧ assembleText "CLR ALL".toList = some [0x70000007] ∧ decode 0x70000007 = some (.clr 7)
    ∧ assembleText "RDI 1023".toList = some [0x800003FF] ∧ decode 0x800003FF = some (.rdi 1023)
    ∧ assembleText "RDB 383".toList = some [0x9000017F] ∧ decode 0x9000017F = some (.rdb 383)
    ∧ assembleText "RDD 3071".toList = some [0xA0000BFF] ∧ decode 0xA0000BFF = some (.rdd 3071)
    ∧ decode 0x20000008 = none ∧ decode 0xC0000000 = none

/-- R61, R62, R63: the opcode of each command, the bits of each format and the operands taken from them; a word with a
reserved opcode or a 1 in a reserved bit is no command, and RECON is one only where HAS_RECON is true. -/
def Obligations.EachFormatGivesItsOperands : Prop :=
  DecodesAs 0x0 0 (fun _ => .nop)
  ∧ DecodesAs 0x1 24 (fun v => .quant (v.extractLsb' 16 8) (v.extractLsb' 8 8) (v.extractLsb' 0 8))
  ∧ DecodesAs 0x2 3 .pushi ∧ DecodesAs 0x3 8 .pushb
  ∧ DecodesAs 0x4 0 (fun _ => .enc) ∧ DecodesAs 0x5 0 (fun _ => .dec) ∧ DecodesAs 0x6 0 (fun _ => .recon)
  ∧ DecodesAs 0x7 3 .clr ∧ DecodesAs 0x8 10 .rdi ∧ DecodesAs 0x9 9 .rdb ∧ DecodesAs 0xA 12 .rdd
  ∧ DecodesAs 0xB 0 (fun _ => .rdstat)
  ∧ (∀ w : Word, 0xC ≤ (w.extractLsb' 28 4).toNat → decode w = none)
  ∧ ∀ (c : Config) (w : Word),
      decodeFor c w = if c.hasRecon = false ∧ decode w = some .recon then none else decode w

/-- R64, R65: the words with a reserved OP, with a 1 in a reserved bit, or RECON without HAS_RECON are the words the
configuration's decoder refuses, and each answers ILLEGAL and changes no state. -/
def Obligations.IllegalWordsAnswerIllegal : Prop :=
  ∀ (s : State) (w : Word),
    (decodeFor s.cfg w = none ↔
      (12 ≤ w.toNat / 2 ^ 28
        ∨ (w.toNat / 2 ^ 28 ∈ [0x0, 0x4, 0x5, 0x6, 0xB] ∧ w.toNat % 2 ^ 28 ≠ 0)
        ∨ (w.toNat / 2 ^ 28 = 0x1 ∧ 2 ^ 24 ≤ w.toNat % 2 ^ 28)
        ∨ (w.toNat / 2 ^ 28 ∈ [0x2, 0x7] ∧ 2 ^ 3 ≤ w.toNat % 2 ^ 28)
        ∨ (w.toNat / 2 ^ 28 = 0x3 ∧ 2 ^ 8 ≤ w.toNat % 2 ^ 28)
        ∨ (w.toNat / 2 ^ 28 = 0x8 ∧ 2 ^ 10 ≤ w.toNat % 2 ^ 28)
        ∨ (w.toNat / 2 ^ 28 = 0x9 ∧ 2 ^ 9 ≤ w.toNat % 2 ^ 28)
        ∨ (w.toNat / 2 ^ 28 = 0xA ∧ 2 ^ 12 ≤ w.toNat % 2 ^ 28)
        ∨ (w.toNat / 2 ^ 28 = 0x6 ∧ s.cfg.hasRecon = false)))
    ∧ (decodeFor s.cfg w = none →
        performWord w s = .next { s with responses := s.responses ++ [0x10000000] })

/-- R67: every word is answered with exactly one response word; ERR is one of the five codes, DATA is 0 whenever ERR is not,
and 0 for a command that returns nothing. -/
def Obligations.EveryWordGetsOneResponse : Prop :=
  ∀ (w : Word) (s : State), ∃ (t : State) (resp : Word),
    performWord w s = .next t ∧ t.responses = s.responses ++ [resp]
      ∧ (resp.extractLsb' 28 4).toNat ≤ 4
      ∧ (resp.extractLsb' 28 4 ≠ 0 → resp.extractLsb' 0 28 = 0)
      ∧ (w.extractLsb' 28 4 ∈ [0x0#4, 0x2#4, 0x3#4, 0x4#4, 0x5#4, 0x6#4, 0x7#4] → resp.extractLsb' 0 28 = 0)

/-! ### QUANT (40_quantizer.md) -/

/-- R104, R107: QUANT answers OK with the palette index of least distance, the lowest such index, and changes no state. -/
def Obligations.QuantAnswersFirstNearestIndex : Prop :=
  (∀ (r g b : Byte) (s : State), ∃ p : PaletteIndex,
    exec (.quant r g b) s = .next { s with responses := s.responses ++ [0#29 ++ p] }
      ∧ (∀ q, distance s.cfg r g b p ≤ distance s.cfg r g b q)
      ∧ (∀ q, q < p → distance s.cfg r g b p < distance s.cfg r g b q))
  ∧ PerformedAs 0x1 24 (fun v => .quant (v.extractLsb' 16 8) (v.extractLsb' 8 8) (v.extractLsb' 0 8))

/-- R106: the distance is the exact squared Euclidean distance on the scale of R105; each difference is in -255..255, each
square at most 65025 and the sum at most 195075. -/
def Obligations.DistanceIsExactAndBounded : Prop :=
  ∀ (c : Config) (r g b : Byte) (p : PaletteIndex), ∃ dr dg db : Int,
    dr = (r.toNat : Int) - (if c.refMode = .nibble then 1 else 17) * ((c.rgb p).r.toNat : Int)
      ∧ dg = (g.toNat : Int) - (if c.refMode = .nibble then 1 else 17) * ((c.rgb p).g.toNat : Int)
      ∧ db = (b.toNat : Int) - (if c.refMode = .nibble then 1 else 17) * ((c.rgb p).b.toNat : Int)
      ∧ distance c r g b p = dr ^ 2 + dg ^ 2 + db ^ 2
      ∧ (∀ d ∈ [dr, dg, db], -255 ≤ d ∧ d ≤ 255 ∧ d ^ 2 ≤ 65025)
      ∧ 0 ≤ distance c r g b p ∧ distance c r g b p ≤ 195075

/-- R108: closure (DATA is 0..7), self-consistency (a colour's own scaled reference gives the colour) and determinism
(equal inputs under equal PALETTE_RGB and REF_MODE give equal responses); red's reference under NIBBLE is (15, 0, 0), and
(255, 0, 0) answers red in every admitted configuration. -/
def Obligations.QuantIsClosedSelfConsistentDeterministic : Prop :=
  (∀ (r g b : Byte) (s : State), ∃ resp : Word,
      exec (.quant r g b) s = .next { s with responses := s.responses ++ [resp] } ∧ resp.toNat < 8)
  ∧ (∀ (r g b : Byte) (p : PaletteIndex) (s : State), s.cfg.Admitted →
      r.toNat = scale s.cfg.refMode (s.cfg.rgb p).r → g.toNat = scale s.cfg.refMode (s.cfg.rgb p).g →
      b.toNat = scale s.cfg.refMode (s.cfg.rgb p).b →
      exec (.quant r g b) s = .next { s with responses := s.responses ++ [0#29 ++ p] })
  ∧ (∀ (r g b : Byte) (s s' : State), s'.cfg.paletteRgb = s.cfg.paletteRgb → s'.cfg.refMode = s.cfg.refMode →
      ∃ resp : Word, exec (.quant r g b) s = .next { s with responses := s.responses ++ [resp] }
        ∧ exec (.quant r g b) s' = .next { s' with responses := s'.responses ++ [resp] })
  ∧ (∀ s : State, s.cfg.Admitted →
      (s.cfg.refMode = .nibble → exec (.quant 15 0 0) s = .next { s with responses := s.responses ++ [0x00000001] })
      ∧ exec (.quant 255 0 0) s = .next { s with responses := s.responses ++ [0x00000001] })

/-- R109: under the default PALETTE_RGB, QUANT answers the closed form and its minimum is unique, under both scales. -/
def Obligations.QuantClosedFormUnderDefaultPalette : Prop :=
  ∀ (r g b : Byte) (s : State), s.cfg.paletteRgb = Config.defaultPaletteRgb →
    exec (.quant r g b) s
        = .next { s with responses := s.responses ++ [0#29 ++ closedFormIndex s.cfg.refMode r g b] }
      ∧ ∀ q, q ≠ closedFormIndex s.cfg.refMode r g b →
          distance s.cfg r g b (closedFormIndex s.cfg.refMode r g b) < distance s.cfg r g b q

/-! ### ENC (41_bitplane_encode.md) -/

/-- R120, R121, R122, R123, R126: with 1024 indices pushed, ENC answers OK, writes all 384 bytes, bit 7 - u of byte n being stream
bit 8n + u, sets BCNT to 384 and leaves everything else; with any other count it raises LENGTH and changes no state. -/
def Obligations.EncPacksThePlanes : Prop :=
  (∀ s : State, s.icnt.val = 1024 → ∃ t : State,
    exec .enc s = .next t
      ∧ (∀ n < 384, ∀ u < 8,
          (t.byte n).getLsbD (7 - u)
            = (s.cfg.bits (s.index ((8 * n + u) % 1024))).char ((8 * n + u) / 1024))
      ∧ (∀ n, 384 ≤ n → Memory.lookup t.bbuf n = none)
      ∧ t.bcnt.val = 384 ∧ t.responses = s.responses ++ [0]
      ∧ t.cfg = s.cfg ∧ (∀ a, Memory.lookup t.ibuf a = Memory.lookup s.ibuf a) ∧ t.icnt = s.icnt
      ∧ (∀ a, Memory.lookup t.dbuf a = Memory.lookup s.dbuf a) ∧ t.dvalid = s.dvalid ∧ t.inputs = s.inputs)
  ∧ (∀ s : State, s.icnt.val ≠ 1024 → exec .enc s = .next { s with responses := s.responses ++ [0x20000000] })
  ∧ PerformedAs 0x4 0 (fun _ => .enc)

/-- R124: where the bits of a pixel stand, the byte as a sum, and the byte of a pixel (x, y) of the host's grid. -/
def Obligations.EncPlacesEachPixel : Prop :=
  ∀ s t : State, s.icnt.val = 1024 → exec .enc s = .next t →
    (∀ i < 1024, ∀ k < 3,
      (t.byte (128 * k + i / 8)).getLsbD (7 - i % 8) = (s.cfg.bits (s.index i)).char k)
    ∧ (∀ m < 128, ∀ k < 3,
      (t.byte (128 * k + m)).toNat
        = ((List.range 8).map fun u => ((s.cfg.bits (s.index (8 * m + u))).char k).toNat * 2 ^ (7 - u)).sum)
    ∧ (∀ x < 64, ∀ y < 16, ∀ k < 3,
      (t.byte (128 * k + 2 * x + y / 8)).getLsbD (7 - y % 8)
        = (s.cfg.bits (s.index (pixelIndex x y))).char k)

/-- R125: the all-black frame packs to zero bytes, the all-white frame to 0xFF bytes, and the bytes depend on the indices
and PALETTE_BITS only. -/
def Obligations.EncBlackWhiteAndDeterminism : Prop :=
  (∀ s t : State, s.cfg.Admitted → s.icnt.val = 1024 → exec .enc s = .next t →
      ((∀ i < 1024, s.index i = Colour.black.index) → ∀ n < 384, t.byte n = 0x00)
      ∧ ((∀ i < 1024, s.index i = Colour.white.index) → ∀ n < 384, t.byte n = 0xFF))
  ∧ (∀ s s' t t' : State, s.icnt.val = 1024 → s'.icnt.val = 1024 → s'.cfg.paletteBits = s.cfg.paletteBits →
      (∀ i < 1024, s'.index i = s.index i) → exec .enc s = .next t → exec .enc s' = .next t' →
      t'.bbuf = t.bbuf)

/-! ### DEC and RECON (42_bitplane_decode.md) -/

/-- R140, R141, R142: with 384 bytes held, DEC answers OK, writes all 3072 bits, bit j being bit 7 - (j mod 8) of byte j div 8,
sets DVALID and leaves everything else; with any other count it raises LENGTH and changes no state. -/
def Obligations.DecExtractsTheBits : Prop :=
  (∀ s : State, s.bcnt.val = 384 → ∃ t : State,
    exec .dec s = .next t
      ∧ (∀ j < 3072, t.bit j = BitVec.ofBool ((s.byte (j / 8)).getLsbD (7 - j % 8)))
      ∧ (∀ j, 3072 ≤ j → Memory.lookup t.dbuf j = none)
      ∧ t.dvalid = true ∧ t.responses = s.responses ++ [0]
      ∧ t.cfg = s.cfg ∧ (∀ a, Memory.lookup t.ibuf a = Memory.lookup s.ibuf a) ∧ t.icnt = s.icnt
      ∧ (∀ a, Memory.lookup t.bbuf a = Memory.lookup s.bbuf a) ∧ t.bcnt = s.bcnt ∧ t.inputs = s.inputs)
  ∧ (∀ s : State, s.bcnt.val ≠ 384 → exec .dec s = .next { s with responses := s.responses ++ [0x20000000] })
  ∧ PerformedAs 0x5 0 (fun _ => .dec)

/-- R144: regrouping DEC's bits gives the bytes back; after ENC then DEC, bit j is the character of its pixel; DEC reads no
palette table and depends on the bytes only. -/
def Obligations.DecRoundTrips : Prop :=
  (∀ s t : State, s.bcnt.val = 384 → exec .dec s = .next t →
      ∀ n < 384, ((List.range 8).map fun u => (t.bit (8 * n + u)).toNat * 2 ^ (7 - u)).sum = (s.byte n).toNat)
  ∧ (∀ s t u v : State, s.icnt.val = 1024 → exec .enc s = .next t →
      u.bbuf = t.bbuf → u.bcnt = t.bcnt → exec .dec u = .next v →
      ∀ j < 3072, v.bit j = BitVec.ofBool ((s.cfg.bits (s.index (j % 1024))).char (j / 1024)))
  ∧ (∀ s s' t t' : State, s.bcnt.val = 384 → s'.bcnt.val = 384 → (∀ n < 384, s'.byte n = s.byte n) →
      exec .dec s = .next t → exec .dec s' = .next t' → t'.dbuf = t.dbuf)

/-- R150, R151: where RECON is present and DEC output is held, RECON answers OK, writes all 1024 indices, the bit-string of
index i being bits i, 1024 + i, 2048 + i and no other index having it, sets ICNT to 1024 and leaves everything else; where
it is absent it raises ILLEGAL, where no DEC output is held NODATA, and changes no state. -/
def Obligations.ReconRebuildsTheIndices : Prop :=
  (∀ s : State, s.cfg.Admitted → s.cfg.hasRecon = true → s.dvalid = true → ∃ t : State,
    exec .recon s = .next t
      ∧ (∀ i < 1024, ∀ p : PaletteIndex,
          (∀ k < 3, BitVec.ofBool ((s.cfg.bits p).char k) = s.bit (1024 * k + i)) ↔ p = t.index i)
      ∧ (∀ i, 1024 ≤ i → Memory.lookup t.ibuf i = none)
      ∧ t.icnt.val = 1024 ∧ t.responses = s.responses ++ [0]
      ∧ t.cfg = s.cfg ∧ (∀ a, Memory.lookup t.bbuf a = Memory.lookup s.bbuf a) ∧ t.bcnt = s.bcnt
      ∧ (∀ a, Memory.lookup t.dbuf a = Memory.lookup s.dbuf a) ∧ t.dvalid = s.dvalid ∧ t.inputs = s.inputs)
  ∧ (∀ s : State, s.cfg.hasRecon = false →
      exec .recon s = .next { s with responses := s.responses ++ [0x10000000] })
  ∧ (∀ s : State, s.cfg.hasRecon = true → s.dvalid = false →
      exec .recon s = .next { s with responses := s.responses ++ [0x40000000] })
  ∧ PerformedAs 0x6 0 (fun _ => .recon)

/-- R152: ENC, DEC and RECON, with nothing between them writing IBUF, BBUF or DBUF or their counts and flag, give every
index back. -/
def Obligations.EncDecReconIsTheIdentity : Prop :=
  ∀ s : State, s.cfg.Admitted → s.cfg.hasRecon = true → s.icnt.val = 1024 →
    ∃ t, exec .enc s = .next t ∧
      ∀ u : State, u.cfg = t.cfg → u.bbuf = t.bbuf → u.bcnt = t.bcnt → ∃ v, exec .dec u = .next v ∧
        ∀ w : State, w.cfg = v.cfg → w.dbuf = v.dbuf → w.dvalid = v.dvalid → ∃ z, exec .recon w = .next z ∧
          z.icnt.val = 1024 ∧ ∀ i < 1024, z.index i = s.index i

/-! ### Host commands (43_host_interface.md) -/

/-- R160: NOP is the all-zero word, answers 0 and changes nothing; every other word with OP 0 is ILLEGAL. -/
def Obligations.NopDoesNothing : Prop :=
  (∀ s : State, exec .nop s = .next { s with responses := s.responses ++ [0x00000000] })
  ∧ PerformedAs 0x0 0 (fun _ => .nop) ∧ decode 0x00000000 = some .nop

/-- R161: PUSHI answers OK, writes IBUF[ICNT] when ICNT is below 1024 and nothing else of any buffer, and advances ICNT,
saturating at 2047. -/
def Obligations.PushiAppendsOneIndex : Prop :=
  (∀ (idx : PaletteIndex) (s : State), ∃ t : State,
    exec (.pushi idx) s = .next t
      ∧ (s.icnt.val < 1024 → Memory.lookup t.ibuf s.icnt.val = some idx)
      ∧ (∀ a, ¬ (s.icnt.val < 1024 ∧ a = s.icnt.val) → Memory.lookup t.ibuf a = Memory.lookup s.ibuf a)
      ∧ t.icnt.val = min (s.icnt.val + 1) 2047 ∧ t.responses = s.responses ++ [0]
      ∧ t.cfg = s.cfg ∧ (∀ a, Memory.lookup t.bbuf a = Memory.lookup s.bbuf a) ∧ t.bcnt = s.bcnt
      ∧ (∀ a, Memory.lookup t.dbuf a = Memory.lookup s.dbuf a) ∧ t.dvalid = s.dvalid ∧ t.inputs = s.inputs)
  ∧ PerformedAs 0x2 3 .pushi

/-- R162: PUSHB answers OK, writes BBUF[BCNT] when BCNT is below 384 and nothing else of any buffer, and advances BCNT,
saturating at 2047. -/
def Obligations.PushbAppendsOneByte : Prop :=
  (∀ (byte : Byte) (s : State), ∃ t : State,
    exec (.pushb byte) s = .next t
      ∧ (s.bcnt.val < 384 → Memory.lookup t.bbuf s.bcnt.val = some byte)
      ∧ (∀ a, ¬ (s.bcnt.val < 384 ∧ a = s.bcnt.val) → Memory.lookup t.bbuf a = Memory.lookup s.bbuf a)
      ∧ t.bcnt.val = min (s.bcnt.val + 1) 2047 ∧ t.responses = s.responses ++ [0]
      ∧ t.cfg = s.cfg ∧ (∀ a, Memory.lookup t.ibuf a = Memory.lookup s.ibuf a) ∧ t.icnt = s.icnt
      ∧ (∀ a, Memory.lookup t.dbuf a = Memory.lookup s.dbuf a) ∧ t.dvalid = s.dvalid ∧ t.inputs = s.inputs)
  ∧ PerformedAs 0x3 8 .pushb

/-- R23, R24: ICNT counts the pushes since the last clear of the index buffer and the pushed indices are its entries in
order; pushes beyond the 1024th are counted and dropped. -/
def Obligations.PushesFillTheIndexBuffer : Prop :=
  ∀ (ps : List PaletteIndex) (s : State), s.icnt.val = 0 → ∃ t : State,
    issueAll (ps.map Instr.pushi) s = .next t
      ∧ t.icnt.val = min ps.length 2047
      ∧ ∀ i, (h : i < ps.length) → i < 1024 → t.index i = ps[i]

/-- R25, R26: BCNT counts the pushed bytes since the last clear of the byte buffer, which are its entries in order. -/
def Obligations.PushesFillTheByteBuffer : Prop :=
  ∀ (bs : List Byte) (s : State), s.bcnt.val = 0 → ∃ t : State,
    issueAll (bs.map Instr.pushb) s = .next t
      ∧ t.bcnt.val = min bs.length 2047
      ∧ ∀ n, (h : n < bs.length) → n < 384 → t.byte n = bs[n]

/-- R164: CLR answers OK, clears ICNT, BCNT and DVALID as mask bits 0, 1 and 2 select, and erases no buffer entry; reads of a
cleared buffer raise NODATA. -/
def Obligations.ClrClearsTheSelected : Prop :=
  (∀ (mask : BitVec 3) (s : State), ∃ t : State,
    exec (.clr mask) s = .next t
      ∧ t.icnt = (if mask.getLsbD 0 = true then 0 else s.icnt)
      ∧ t.bcnt = (if mask.getLsbD 1 = true then 0 else s.bcnt)
      ∧ t.dvalid = (if mask.getLsbD 2 = true then false else s.dvalid)
      ∧ t.responses = s.responses ++ [0] ∧ t.cfg = s.cfg
      ∧ (∀ a, Memory.lookup t.ibuf a = Memory.lookup s.ibuf a)
      ∧ (∀ a, Memory.lookup t.bbuf a = Memory.lookup s.bbuf a)
      ∧ (∀ a, Memory.lookup t.dbuf a = Memory.lookup s.dbuf a) ∧ t.inputs = s.inputs
      ∧ (mask.getLsbD 0 = true → ∀ a, exec (.rdi a) t = .next { t with responses := t.responses ++ [0x40000000] })
      ∧ (mask.getLsbD 1 = true → ∀ a, a.toNat < 384 →
          exec (.rdb a) t = .next { t with responses := t.responses ++ [0x40000000] })
      ∧ (mask.getLsbD 2 = true → ∀ a, a.toNat < 3072 →
          exec (.rdd a) t = .next { t with responses := t.responses ++ [0x40000000] }))
  ∧ PerformedAs 0x7 3 .clr

/-- R172: RDI answers IBUF[a] when a is below min(ICNT, 1024) and NODATA otherwise; it changes no state. -/
def Obligations.RdiReadsOneIndex : Prop :=
  (∀ (a : BitVec 10) (s : State),
    (a.toNat < min s.icnt.val 1024 →
      exec (.rdi a) s = .next { s with responses := s.responses ++ [0#29 ++ s.index a.toNat] })
    ∧ (min s.icnt.val 1024 ≤ a.toNat → exec (.rdi a) s = .next { s with responses := s.responses ++ [0x40000000] }))
  ∧ PerformedAs 0x8 10 .rdi

/-- R173: RDB answers BBUF[a] when a is below min(BCNT, 384), RANGE when a is 384 or more, NODATA otherwise; it changes no
state. -/
def Obligations.RdbReadsOneByte : Prop :=
  (∀ (a : BitVec 9) (s : State),
    (a.toNat < min s.bcnt.val 384 →
      exec (.rdb a) s = .next { s with responses := s.responses ++ [0#24 ++ s.byte a.toNat] })
    ∧ (384 ≤ a.toNat → exec (.rdb a) s = .next { s with responses := s.responses ++ [0x30000000] })
    ∧ (a.toNat < 384 → min s.bcnt.val 384 ≤ a.toNat →
        exec (.rdb a) s = .next { s with responses := s.responses ++ [0x40000000] }))
  ∧ PerformedAs 0x9 9 .rdb

/-- R174: RDD answers DBUF[a] when a is below 3072 and DVALID is 1, RANGE when a is 3072 or more, NODATA otherwise; it
changes no state. -/
def Obligations.RddReadsOneBit : Prop :=
  (∀ (a : BitVec 12) (s : State),
    (a.toNat < 3072 → s.dvalid = true →
      exec (.rdd a) s = .next { s with responses := s.responses ++ [0#31 ++ s.bit a.toNat] })
    ∧ (3072 ≤ a.toNat → exec (.rdd a) s = .next { s with responses := s.responses ++ [0x30000000] })
    ∧ (a.toNat < 3072 → s.dvalid = false →
        exec (.rdd a) s = .next { s with responses := s.responses ++ [0x40000000] }))
  ∧ PerformedAs 0xA 12 .rdd

/-- R175, R31: RDSTAT answers OK with the status word's fields and changes no state. -/
def Obligations.RdstatReadsTheStatusWord : Prop :=
  (∀ s : State, ∃ resp : Word,
    exec .rdstat s = .next { s with responses := s.responses ++ [resp] }
      ∧ (resp.extractLsb' 0 11).toNat = s.icnt.val
      ∧ (resp.extractLsb' 11 11).toNat = s.bcnt.val
      ∧ resp.getLsbD 22 = s.dvalid
      ∧ resp.getLsbD 23 = s.cfg.hasRecon
      ∧ resp.getLsbD 24 = decide (s.cfg.refMode = .replicated)
      ∧ resp.extractLsb' 25 7 = 0)
  ∧ PerformedAs 0xB 0 (fun _ => .rdstat)

/-- R180: pixel i is at column i div 16 and row i mod 16, pixel (x, y) is 16x + y, and the grid is visited in index order. -/
def Obligations.PixelOrderIsColumnMajor : Prop :=
  (∀ i < 1024, pixelColumn i < 64 ∧ pixelRow i < 16 ∧ pixelIndex (pixelColumn i) (pixelRow i) = i)
  ∧ (∀ x < 64, ∀ y < 16, pixelIndex x y < 1024 ∧ pixelColumn (pixelIndex x y) = x ∧ pixelRow (pixelIndex x y) = y)
  ∧ gridOrder.map (fun xy => pixelIndex xy.1 xy.2) = List.range 1024

/-- R181: for each grid position the host's part writes black outside the image and QUANT's index of the pixel inside it,
at the entry the count selects, and advances the count by one. -/
def Obligations.PushPixelWritesBlackOutside : Prop :=
  ∀ (img : Image) (x y : Nat) (s : State), s.icnt.val < 1024 → ∃ t : State,
    pushPixel img x y s = .next t
      ∧ t.icnt.val = s.icnt.val + 1
      ∧ t.index s.icnt.val
          = (if img.width ≤ x ∨ img.height ≤ y then Colour.black.index
             else nearest s.cfg (img.pixel x y).r (img.pixel x y).g (img.pixel x y).b)
      ∧ (∀ a, a ≠ s.icnt.val → t.index a = s.index a) ∧ t.cfg = s.cfg

/-- R181, R182 and R124, over the host's procedure and images of log entry 18: from any state, the image-to-bytes
procedure completes; it loads black for each grid position outside the
image and QUANT's index of the pixel inside it, and its 384 bytes hold, for each grid position and plane, the character of
the bit-string of that index. No pixel outside the grid has a part in it. -/
def Obligations.ImageProcedureYieldsThePackedFrame : Prop :=
  ∀ (img : Image) (s : State), ∃ t : State,
    encodeImage img s = .next t
      ∧ t.icnt.val = 1024 ∧ (graffitiData t).length = 384
      ∧ ∀ x < 64, ∀ y < 16,
          t.index (pixelIndex x y)
            = (if img.width ≤ x ∨ img.height ≤ y then Colour.black.index
                else nearest s.cfg (img.pixel x y).r (img.pixel x y).g (img.pixel x y).b)
          ∧ ∀ k < 3,
            ((graffitiData t).getD (128 * k + 2 * x + y / 8) 0).getLsbD (7 - y % 8)
              = (s.cfg.bits (t.index (pixelIndex x y))).char k

/-- R182: from any state, the inverse path on 384 bytes completes and its last 3072 responses are the stream's bits in order,
bit j being bit 7 - (j mod 8) of byte j div 8. -/
def Obligations.BytesProcedureYieldsTheBits : Prop :=
  ∀ (bytes : List Byte) (s : State), bytes.length = 384 → ∃ t : State,
    decodeBytes bytes s = .next t
      ∧ t.responses.drop (t.responses.length - 3072)
          = (List.range 3072).map fun j => 0#31 ++ BitVec.ofBool ((bytes.getD (j / 8) 0).getLsbD (7 - j % 8))

/-! ### Errors (60_exceptions.md) -/

/-- R200, R203: which word raises which error, in which state: the error codes are the five of the table, and each is
answered exactly on its cause. -/
def Obligations.EachErrorHasItsCommands : Prop :=
  ∀ (w : Word) (s : State), ∃ (t : State) (resp : Word),
    performWord w s = .next t ∧ t.responses = s.responses ++ [resp]
      ∧ (resp.extractLsb' 28 4 = 0x1 ↔ decodeFor s.cfg w = none)
      ∧ (resp.extractLsb' 28 4 = 0x2 ↔
          (decode w = some .enc ∧ s.icnt.val ≠ 1024) ∨ (decode w = some .dec ∧ s.bcnt.val ≠ 384))
      ∧ (resp.extractLsb' 28 4 = 0x3 ↔
          (∃ a, decode w = some (.rdb a) ∧ 384 ≤ a.toNat) ∨ ∃ a, decode w = some (.rdd a) ∧ 3072 ≤ a.toNat)
      ∧ (resp.extractLsb' 28 4 = 0x4 ↔
          (∃ a, decode w = some (.rdi a) ∧ min s.icnt.val 1024 ≤ a.toNat)
          ∨ (∃ a, decode w = some (.rdb a) ∧ a.toNat < 384 ∧ min s.bcnt.val 384 ≤ a.toNat)
          ∨ (∃ a, decode w = some (.rdd a) ∧ a.toNat < 3072 ∧ s.dvalid = false)
          ∨ (decode w = some .recon ∧ s.cfg.hasRecon = true ∧ s.dvalid = false))
      ∧ (resp.extractLsb' 28 4).toNat < 5
      ∧ (resp.extractLsb' 28 4 ≠ 0 → resp.extractLsb' 0 28 = 0)

/-- R201: a word answered with an error changes no state, and errors are not sticky: the next word is answered and performed
as it would have been without it. -/
def Obligations.ErrorsAreAtomicAndNotSticky : Prop :=
  ∀ (w : Word) (s t : State) (resp : Word), performWord w s = .next t → t.responses = s.responses ++ [resp] →
    resp.extractLsb' 28 4 ≠ 0 →
    SameBlock s t ∧ t.inputs = s.inputs
      ∧ ∀ w' : Word, ∃ (u v : State) (resp' : Word), performWord w' s = .next u ∧ performWord w' t = .next v
          ∧ u.responses = s.responses ++ [resp'] ∧ v.responses = t.responses ++ [resp'] ∧ SameBlock u v

/-- R203: ILLEGAL is reported before RANGE, and RANGE before NODATA, whatever the state. -/
def Obligations.ErrorPriority : Prop :=
  ∀ s : State,
    (∀ w : Word, decodeFor s.cfg w = none →
      performWord w s = .next { s with responses := s.responses ++ [0x10000000] })
    ∧ (∀ a : BitVec 9, 384 ≤ a.toNat →
      performWord (encode (.rdb a)) s = .next { s with responses := s.responses ++ [0x30000000] })
    ∧ (∀ a : BitVec 12, 3072 ≤ a.toNat →
      performWord (encode (.rdd a)) s = .next { s with responses := s.responses ++ [0x30000000] })
    ∧ decodeFor s.cfg 0x90000200 = none

/-! ### State, memory and the run (10_state.md, 20_memory.md, 70_reset_and_hazards.md) -/

/-- R21: a block starts with the configuration it is given, and no step, be it a command or a reset, changes it. -/
def Obligations.StepKeepsTheConfiguration : Prop :=
  (∀ c : Config, (State.resetWith c).cfg = c) ∧ ∀ s t : State, step s = .next t → t.cfg = s.cfg

/-- R20's column "writable by": each element changes only by the commands named for it. -/
def Obligations.EachElementHasItsWriters : Prop :=
  ∀ (i : Instr) (s t : State), exec i s = .next t →
    (t.ibuf ≠ s.ibuf → (∃ idx, i = .pushi idx) ∨ i = .recon)
    ∧ (t.icnt ≠ s.icnt → (∃ idx, i = .pushi idx) ∨ i = .recon ∨ ∃ mask, i = .clr mask)
    ∧ (t.bbuf ≠ s.bbuf → (∃ byte, i = .pushb byte) ∨ i = .enc)
    ∧ (t.bcnt ≠ s.bcnt → (∃ byte, i = .pushb byte) ∨ i = .enc ∨ ∃ mask, i = .clr mask)
    ∧ (t.dbuf ≠ s.dbuf → i = .dec)
    ∧ (t.dvalid ≠ s.dvalid → i = .dec ∨ ∃ mask, i = .clr mask)
    ∧ t.cfg = s.cfg ∧ t.inputs = s.inputs

/-- R46: RDI, RDB, RDD, RDSTAT and QUANT change no state, and the same command gets the same response from the same block;
PUSHI and PUSHB each advance their counter (below its saturation, R24, R26). -/
def Obligations.ReadsAreIdempotent : Prop :=
  (∀ (i : Instr) (s : State),
    ((∃ a, i = .rdi a) ∨ (∃ a, i = .rdb a) ∨ (∃ a, i = .rdd a) ∨ i = .rdstat ∨ ∃ r g b, i = .quant r g b) →
    ∃ resp : Word, ∀ t : State, SameBlock s t → exec i t = .next { t with responses := t.responses ++ [resp] })
  ∧ (∀ (idx : PaletteIndex) (s : State), s.icnt.val < 2047 →
      ∃ t, exec (.pushi idx) s = .next t ∧ t.icnt.val = s.icnt.val + 1)
  ∧ (∀ (byte : Byte) (s : State), s.bcnt.val < 2047 →
      ∃ t, exec (.pushb byte) s = .next t ∧ t.bcnt.val = s.bcnt.val + 1)

/-- R48 (20_memory.md section 4), over the queue of pending events that is the model's choice (log entry 2): a step performs
the oldest pending command word: the command it decodes to acts on the state with that word taken
off the queue. -/
def Obligations.StepRunsTheOldestCommand : Prop :=
  ∀ (s : State) (w : Word) (rest : List HostEvent) (i : Instr), s.cfg.Admitted →
    s.inputs = .command w :: rest → decode w = some i → step s = exec i { s with inputs := rest }

/-- R65, over the model's queue (log entry 2): a step whose oldest pending word decodes to no command answers ILLEGAL and changes no state of the block. -/
def Obligations.StepAnswersIllegalOtherwise : Prop :=
  ∀ (s : State) (w : Word) (rest : List HostEvent), s.cfg.Admitted →
    s.inputs = .command w :: rest → decode w = none →
      step s = .next { s with inputs := rest, responses := s.responses ++ [0x10000000] }

/-- R212, the idle step being the model's choice (log entry 2): with no event pending the block is idle and its state
persists. -/
def Obligations.IdleBlockKeepsItsState : Prop :=
  ∀ s : State, s.cfg.Admitted → s.inputs = [] → step s = .next s

/-- The model's own interface (log entry 11), and no rule of the spec: the word placed in front of the queue of log entry 2
runs as the next command. -/
def Obligations.PlacedWordRunsNext : Prop :=
  ∀ (s : State) (w : Nat) (i : Instr), s.cfg.Admitted → decodeTableWord 32 w = some i →
    step (s.withFetchWord 32 w) = exec i s

/-- R9: the configurations that fail one of (a) to (d) are refused, the others are not. -/
def Obligations.InadmissibleConfigurationIsRefused : Prop :=
  ∀ s : State,
    step s = .refused .inadmissibleConfiguration ↔
      ¬ ((∀ p q : PaletteIndex, p ≠ q → s.cfg.rgb p ≠ s.cfg.rgb q)
        ∧ s.cfg.rgb Colour.red.index = ⟨0xF, 0x0, 0x0⟩
        ∧ (∀ k < 3, (s.cfg.bits Colour.black.index).char k = false)
        ∧ (∀ k < 3, (s.cfg.bits Colour.white.index).char k = true)
        ∧ (s.cfg.hasRecon = true → ∀ p q : PaletteIndex, p ≠ q → s.cfg.bits p ≠ s.cfg.bits q))

/-- R220, with R221's "Reset returns no response": a block right after reset, and any block after a reset event, has
counters and flag 0, the configuration unchanged, unobservable buffer contents and a status word of the configuration's bits
only. The model's own, and no rule's: a reset event keeps the later events (log entry 2) and the earlier responses (log
entry 3), and buffers that list nothing stand for R220's "unspecified" (log entry 10). -/
def Obligations.ResetStateIsAsStated : Prop :=
  (∀ s : State, s.cfg.Admitted → ∀ rest, s.inputs = .reset :: rest →
    ∃ t, step s = .next t ∧ SameBlock (State.resetWith s.cfg) t ∧ t.inputs = rest ∧ t.responses = s.responses)
  ∧ ∀ s t : State, SameBlock (State.resetWith s.cfg) t →
      t.cfg = s.cfg ∧ t.icnt = 0 ∧ t.bcnt = 0 ∧ t.dvalid = false
      ∧ (∀ a, Memory.lookup t.ibuf a = none) ∧ (∀ a, Memory.lookup t.bbuf a = none)
      ∧ (∀ a, Memory.lookup t.dbuf a = none)
      ∧ (∀ a, exec (.rdi a) t = .next { t with responses := t.responses ++ [0x40000000] })
      ∧ (∀ a, exec (.rdb a) t
          = .next { t with responses := t.responses ++ [if 384 ≤ a.toNat then 0x30000000 else 0x40000000] })
      ∧ (∀ a, exec (.rdd a) t
          = .next { t with responses := t.responses ++ [if 3072 ≤ a.toNat then 0x30000000 else 0x40000000] })
      ∧ exec .enc t = .next { t with responses := t.responses ++ [0x20000000] }
      ∧ exec .dec t = .next { t with responses := t.responses ++ [0x20000000] }
      ∧ exec .recon t
          = .next { t with responses := t.responses ++ [if s.cfg.hasRecon = true then 0x40000000 else 0x10000000] }
      ∧ (statusWord t).extractLsb' 0 23 = 0 ∧ (statusWord t).extractLsb' 25 3 = 0
      ∧ (statusWord t).getLsbD 23 = s.cfg.hasRecon
      ∧ (statusWord t).getLsbD 24 = decide (s.cfg.refMode = .replicated)

/-- R221: reset and CLR ALL give the same responses to every later sequence of events, reset itself returning none; both
leave the counters and flag 0, and CLR ALL leaves the buffer contents. The later events stand in the queue of log entry 2
and the responses in the list of log entry 3, which are the model's. -/
def Obligations.ResetAndClearAllAreIndistinguishable : Prop :=
  ∀ (s : State) (later : List HostEvent) (n : Nat), s.cfg.Admitted →
    ∃ (r c r' c' : State) (answers : List Word),
      step { s with inputs := .reset :: later } = .next r
      ∧ step { s with inputs := .command 0x70000007 :: later } = .next c
      ∧ r.icnt = 0 ∧ r.bcnt = 0 ∧ r.dvalid = false ∧ c.icnt = 0 ∧ c.bcnt = 0 ∧ c.dvalid = false
      ∧ c.ibuf = s.ibuf ∧ c.bbuf = s.bbuf ∧ c.dbuf = s.dbuf
      ∧ r.responses = s.responses ∧ c.responses = s.responses ++ [0]
      ∧ Host.Core.run core n r = .next r' ∧ Host.Core.run core n c = .next c'
      ∧ r'.responses = r.responses ++ answers ∧ c'.responses = c.responses ++ answers

/-- R9, R220, R222: a block of an admitted configuration meets the invariant right after reset, and so does the reset state. -/
def Obligations.ResetMeetsTheInvariant : Prop :=
  State.reset.Inv ∧ ∀ c : Config, c.Admitted → (State.resetWith c).Inv

/-- R32: every step keeps the invariant: admitted configuration, buffers in canonical form, and every entry a command may
read has been written. -/
def Obligations.StepKeepsTheInvariant : Prop := ∀ s t : State, s.Inv → step s = .next t → t.Inv

/-- R32: in a state a run reaches, a read that passes its check never meets an unspecified entry. -/
def Obligations.ReachableReadsMeetWrittenEntries : Prop :=
  ∀ s : State, Reachable s →
    (∀ a, s.indexWritten a = true → (Memory.lookup s.ibuf a).isSome = true)
    ∧ (∀ a, s.byteWritten a = true → (Memory.lookup s.bbuf a).isSome = true)
    ∧ (∀ a, bitInRange a = true → s.dvalid = true → (Memory.lookup s.dbuf a).isSome = true)
    ∧ (s.icnt.val = 1024 → ∀ i < 1024, (Memory.lookup s.ibuf i).isSome = true)
    ∧ (s.bcnt.val = 384 → ∀ n < 384, (Memory.lookup s.bbuf n).isSome = true)

/-! ### Assembly (30_encoding.md R68 to R70) -/

/-- R68: the word a written command encodes, operand by operand, and which operands the assembler refuses. -/
def Obligations.AssemblerEncodesWhatFits : Prop :=
  (∀ r g b : Nat, (AsmLine.command (.quant r g b)).words
      = if r ≤ 255 ∧ g ≤ 255 ∧ b ≤ 255 then some [BitVec.ofNat 32 (0x10000000 + r * 2 ^ 16 + g * 2 ^ 8 + b)] else none)
  ∧ (∀ v : Nat, (AsmLine.command (.quant24 v)).words
      = if v < 2 ^ 24 then some [BitVec.ofNat 32 (0x10000000 + v)] else none)
  ∧ (∀ p : Nat, (AsmLine.command (.pushi (.number p))).words
      = if p ≤ 7 then some [BitVec.ofNat 32 (0x20000000 + p)] else none)
  ∧ (∀ v : Nat, (AsmLine.command (.pushb v)).words
      = if v ≤ 255 then some [BitVec.ofNat 32 (0x30000000 + v)] else none)
  ∧ (∀ m : Nat, (AsmLine.command (.clr (.number m))).words
      = if m ≤ 7 then some [BitVec.ofNat 32 (0x70000000 + m)] else none)
  ∧ (∀ a : Nat, (AsmLine.command (.rdi a)).words
      = if a ≤ 1023 then some [BitVec.ofNat 32 (0x80000000 + a)] else none)
  ∧ (∀ a : Nat, (AsmLine.command (.rdb a)).words
      = if a ≤ 511 then some [BitVec.ofNat 32 (0x90000000 + a)] else none)
  ∧ (∀ a : Nat, (AsmLine.command (.rdd a)).words
      = if a ≤ 4095 then some [BitVec.ofNat 32 (0xA0000000 + a)] else none)
  ∧ (AsmLine.command .nop).words = some [0x00000000] ∧ (AsmLine.command .enc).words = some [0x40000000]
  ∧ (AsmLine.command .dec).words = some [0x50000000] ∧ (AsmLine.command .recon).words = some [0x60000000]
  ∧ (AsmLine.command .rdstat).words = some [0xB0000000]

/-- R70: the expansion of each pseudo-instruction. -/
def Obligations.PseudoInstructionsExpand : Prop :=
  AsmLine.clrAll.words = (AsmLine.command (.clr (.number 7))).words
  ∧ (∀ (n : Nat) (c : AsmCommand) (i : Instr), 1 ≤ n → c.assemble = some i →
      (AsmLine.rep n c).assemble = some (List.replicate n i))
  ∧ (∀ (idx : IndexOperand) (p : PaletteIndex), idx.value = some p →
      (AsmLine.filli idx).assemble = some (.clr 1 :: List.replicate 1024 (.pushi p)))
  ∧ (∀ (ps : List IndexOperand) (vs : List PaletteIndex), ps ≠ [] → ps.map IndexOperand.value = vs.map some →
      (AsmLine.loadi ps).assemble = some (vs.map Instr.pushi))
  ∧ (∀ vs : List Byte, vs ≠ [] → (AsmLine.loadb (vs.map BitVec.toNat)).assemble = some (vs.map Instr.pushb))

/-! ### Two runs (70_reset_and_hazards.md R221) -/

/-- R221's "indistinguishable to the host" as a step lemma, over the queue and the list of responses of log entries 2 and 3:
from two blocks the host cannot tell apart, with the same pending events, each side's step goes on, both add the same
responses, and the host cannot tell the two next blocks apart either, nor do their pending events differ. -/
def Obligations.StepKeepsIndistinguishability : Prop :=
  ∀ s t : State, s.cfg.Admitted → HostIndistinguishable s t → t.inputs = s.inputs →
    ∃ (s' t' : State) (answers : List Word),
      step s = .next s' ∧ step t = .next t'
      ∧ HostIndistinguishable s' t' ∧ t'.inputs = s'.inputs ∧ s'.cfg = s.cfg
      ∧ s'.responses = s.responses ++ answers ∧ t'.responses = t.responses ++ answers
end

