-- ==== Sys2Proof/Laws/Decode.lean ====
section
/-! SUPPORT. Laws/Decode.lean: the decoder and the encoder in numbers, and that no two rows of the opcode map overlap. -/

namespace Sys2Proof

/-! ### Words in numbers -/

theorem toNat_append_eq_add {m n : Nat} (x : BitVec m) (y : BitVec n) :
    (x ++ y).toNat = x.toNat * 2 ^ n + y.toNat := by
  rw [BitVec.toNat_append, ← Nat.shiftLeft_add_eq_or_of_lt y.isLt, Nat.shiftLeft_eq]

theorem field_toNat (w : Word) (lo width : Nat) : (field w lo width).toNat = w.toNat / 2 ^ lo % 2 ^ width := by
  simp [field, BitVec.extractLsb'_toNat, Nat.shiftRight_eq_div_pow]

/-- A word masked to its bits from `k` up equals a pattern without lower bits exactly when the numbers above bit `k` agree. -/
theorem and_high_mask_eq_iff (w p : Word) (k : Nat) (hp : p.toNat % 2 ^ k = 0) :
    w &&& (BitVec.allOnes 32 <<< k) = p ↔ w.toNat / 2 ^ k = p.toNat / 2 ^ k := by
  have hw : (w &&& (BitVec.allOnes 32 <<< k)) = (w >>> k) <<< k := by
    ext i hi
    simp only [BitVec.getElem_and, BitVec.getElem_shiftLeft, BitVec.getElem_allOnes]
    by_cases h : i < k
    · simp [h]
    · have : k + (i - k) = i := by omega
      simp [h, this, hi]
  have hn : ((w >>> k) <<< k).toNat = w.toNat / 2 ^ k * 2 ^ k := by
    rw [BitVec.toNat_shiftLeft, BitVec.toNat_ushiftRight, Nat.shiftLeft_eq, Nat.shiftRight_eq_div_pow]
    exact Nat.mod_eq_of_lt (Nat.lt_of_le_of_lt (Nat.div_mul_le_self _ _) w.isLt)
  have hpd : p.toNat = p.toNat / 2 ^ k * 2 ^ k := by
    have := Nat.div_add_mod p.toNat (2 ^ k)
    rw [hp, Nat.add_zero, Nat.mul_comm] at this
    exact this.symm
  rw [hw, ← BitVec.toNat_inj, hn]
  constructor
  · intro h
    rw [← h, Nat.mul_div_cancel _ (Nat.two_pow_pos k)]
  · intro h
    rw [h, ← hpd]

/-! ### Rows in numbers -/

/-- A row whose mask is all ones from bit `k` up matches a word exactly when the numbers above bit `k` agree. -/
theorem OpcodeRow.matches_iff {row : OpcodeRow} (k : Nat) (hm : row.mask = BitVec.allOnes 32 <<< k)
    (hp : row.pattern.toNat % 2 ^ k = 0) (w : Word) :
    row.matches w = decide (w.toNat / 2 ^ k = row.pattern.toNat / 2 ^ k) := by
  have h := and_high_mask_eq_iff w row.pattern k hp
  rw [OpcodeRow.matches, hm, Bool.eq_iff_iff]
  simpa using h

/-- "At most one row matches" (R64): wherever two rows both fix a bit, some such bit differs. -/
theorem opcodeTable_rows_disjoint :
    opcodeTable.Pairwise fun r q => (r.pattern ^^^ q.pattern) &&& r.mask &&& q.mask ≠ 0 := by decide

theorem matches_nop (w : Word) : OpcodeRow.matches ⟨.nop, 0xFFFFFFFF, 0x00000000⟩ w = decide (w.toNat = 0x0) := by
  rw [OpcodeRow.matches_iff 0 (by decide) (by decide)]
  simp

theorem matches_quant (w : Word) : OpcodeRow.matches ⟨.quant, 0xFF000000, 0x10000000⟩ w = decide (w.toNat / 2 ^ 24 = 0x10) := by
  rw [OpcodeRow.matches_iff 24 (by decide) (by decide)]
  simp

theorem matches_pushi (w : Word) : OpcodeRow.matches ⟨.pushi, 0xFFFFFFF8, 0x20000000⟩ w = decide (w.toNat / 2 ^ 3 = 0x4000000) := by
  rw [OpcodeRow.matches_iff 3 (by decide) (by decide)]
  simp

theorem matches_pushb (w : Word) : OpcodeRow.matches ⟨.pushb, 0xFFFFFF00, 0x30000000⟩ w = decide (w.toNat / 2 ^ 8 = 0x300000) := by
  rw [OpcodeRow.matches_iff 8 (by decide) (by decide)]
  simp

theorem matches_enc (w : Word) : OpcodeRow.matches ⟨.enc, 0xFFFFFFFF, 0x40000000⟩ w = decide (w.toNat = 0x40000000) := by
  rw [OpcodeRow.matches_iff 0 (by decide) (by decide)]
  simp

theorem matches_dec (w : Word) : OpcodeRow.matches ⟨.dec, 0xFFFFFFFF, 0x50000000⟩ w = decide (w.toNat = 0x50000000) := by
  rw [OpcodeRow.matches_iff 0 (by decide) (by decide)]
  simp

theorem matches_recon (w : Word) : OpcodeRow.matches ⟨.recon, 0xFFFFFFFF, 0x60000000⟩ w = decide (w.toNat = 0x60000000) := by
  rw [OpcodeRow.matches_iff 0 (by decide) (by decide)]
  simp

theorem matches_clr (w : Word) : OpcodeRow.matches ⟨.clr, 0xFFFFFFF8, 0x70000000⟩ w = decide (w.toNat / 2 ^ 3 = 0xE000000) := by
  rw [OpcodeRow.matches_iff 3 (by decide) (by decide)]
  simp

theorem matches_rdi (w : Word) : OpcodeRow.matches ⟨.rdi, 0xFFFFFC00, 0x80000000⟩ w = decide (w.toNat / 2 ^ 10 = 0x200000) := by
  rw [OpcodeRow.matches_iff 10 (by decide) (by decide)]
  simp

theorem matches_rdb (w : Word) : OpcodeRow.matches ⟨.rdb, 0xFFFFFE00, 0x90000000⟩ w = decide (w.toNat / 2 ^ 9 = 0x480000) := by
  rw [OpcodeRow.matches_iff 9 (by decide) (by decide)]
  simp

theorem matches_rdd (w : Word) : OpcodeRow.matches ⟨.rdd, 0xFFFFF000, 0xA0000000⟩ w = decide (w.toNat / 2 ^ 12 = 0xA0000) := by
  rw [OpcodeRow.matches_iff 12 (by decide) (by decide)]
  simp

theorem matches_rdstat (w : Word) : OpcodeRow.matches ⟨.rdstat, 0xFFFFFFFF, 0xB0000000⟩ w = decide (w.toNat = 0xB0000000) := by
  rw [OpcodeRow.matches_iff 0 (by decide) (by decide)]
  simp

theorem find_row_cons (w : Word) (row : OpcodeRow) (rest : List OpcodeRow) :
    ((row :: rest).find? (·.matches w)).map (·.op.operands w)
      = if row.matches w = true then some (row.op.operands w)
        else (rest.find? (·.matches w)).map (·.op.operands w) := by
  cases h : row.matches w <;> simp [h]

/-- The decoder in numbers. -/
theorem decode_eq (w : Word) :
    decode w =
      if w.toNat = 0 then some .nop
      else if w.toNat / 2 ^ 24 = 0x10 then some (.quant (field w 16 8) (field w 8 8) (field w 0 8))
      else if w.toNat / 2 ^ 3 = 0x4000000 then some (.pushi (field w 0 3))
      else if w.toNat / 2 ^ 8 = 0x300000 then some (.pushb (field w 0 8))
      else if w.toNat = 0x40000000 then some .enc
      else if w.toNat = 0x50000000 then some .dec
      else if w.toNat = 0x60000000 then some .recon
      else if w.toNat / 2 ^ 3 = 0xE000000 then some (.clr (field w 0 3))
      else if w.toNat / 2 ^ 10 = 0x200000 then some (.rdi (field w 0 10))
      else if w.toNat / 2 ^ 9 = 0x480000 then some (.rdb (field w 0 9))
      else if w.toNat / 2 ^ 12 = 0xA0000 then some (.rdd (field w 0 12))
      else if w.toNat = 0xB0000000 then some .rdstat
      else none := by
  simp only [decode, opcodeTable, find_row_cons, matches_nop, matches_quant, matches_pushi, matches_pushb, matches_enc,
    matches_dec, matches_recon, matches_clr, matches_rdi, matches_rdb, matches_rdd, matches_rdstat,
    decide_eq_true_eq, List.find?_nil, Option.map_none]
  simp only [Opcode.operands]

/-- What the decoder reads from `w`: one case for each row of the opcode map, and the words of no row. -/
inductive Reads (w : Word) : Option Instr → Prop where
  | nop (h : w.toNat = 0) : Reads w (some .nop)
  | quant (h : w.toNat / 2 ^ 24 = 0x10) : Reads w (some (.quant (field w 16 8) (field w 8 8) (field w 0 8)))
  | pushi (h : w.toNat / 2 ^ 3 = 0x4000000) : Reads w (some (.pushi (field w 0 3)))
  | pushb (h : w.toNat / 2 ^ 8 = 0x300000) : Reads w (some (.pushb (field w 0 8)))
  | enc (h : w.toNat = 0x40000000) : Reads w (some .enc)
  | dec (h : w.toNat = 0x50000000) : Reads w (some .dec)
  | recon (h : w.toNat = 0x60000000) : Reads w (some .recon)
  | clr (h : w.toNat / 2 ^ 3 = 0xE000000) : Reads w (some (.clr (field w 0 3)))
  | rdi (h : w.toNat / 2 ^ 10 = 0x200000) : Reads w (some (.rdi (field w 0 10)))
  | rdb (h : w.toNat / 2 ^ 9 = 0x480000) : Reads w (some (.rdb (field w 0 9)))
  | rdd (h : w.toNat / 2 ^ 12 = 0xA0000) : Reads w (some (.rdd (field w 0 12)))
  | rdstat (h : w.toNat = 0xB0000000) : Reads w (some .rdstat)
  | none (hNop : ¬ w.toNat = 0) (hQuant : ¬ w.toNat / 2 ^ 24 = 0x10) (hPushi : ¬ w.toNat / 2 ^ 3 = 0x4000000)
      (hPushb : ¬ w.toNat / 2 ^ 8 = 0x300000) (hEnc : ¬ w.toNat = 0x40000000) (hDec : ¬ w.toNat = 0x50000000)
      (hRecon : ¬ w.toNat = 0x60000000) (hClr : ¬ w.toNat / 2 ^ 3 = 0xE000000) (hRdi : ¬ w.toNat / 2 ^ 10 = 0x200000)
      (hRdb : ¬ w.toNat / 2 ^ 9 = 0x480000) (hRdd : ¬ w.toNat / 2 ^ 12 = 0xA0000) (hRdstat : ¬ w.toNat = 0xB0000000) : Reads w none

theorem Reads.ite {w : Word} {c : Prop} [Decidable c] {a b : Option Instr} (ha : c → Reads w a) (hb : ¬ c → Reads w b) :
    Reads w (if c then a else b) := by
  split
  · exact ha ‹c›
  · exact hb ‹¬ c›

/-- Every word is read in exactly one way: case analysis on the decoder is case analysis on this. -/
theorem decode_reads (w : Word) : Reads w (decode w) := by
  rw [decode_eq]
  refine .ite .nop fun hNop => .ite .quant fun hQuant => .ite .pushi fun hPushi => .ite .pushb fun hPushb =>
    .ite .enc fun hEnc => .ite .dec fun hDec => .ite .recon fun hRecon => .ite .clr fun hClr =>
    .ite .rdi fun hRdi => .ite .rdb fun hRdb => .ite .rdd fun hRdd => .ite .rdstat fun hRdstat =>
    .none hNop hQuant hPushi hPushb hEnc hDec hRecon hClr hRdi hRdb hRdd hRdstat

/-! A word whose number is in a row's range is read as that row's command. -/

theorem decode_quant {w : Word} (h : w.toNat / 2 ^ 24 = 0x10) : decode w = some (.quant (field w 16 8) (field w 8 8) (field w 0 8)) := by
  have hw := decode_reads w
  generalize decode w = read at hw ⊢
  cases hw <;> first | rfl | omega

theorem decode_pushb {w : Word} (h : w.toNat / 2 ^ 8 = 0x300000) : decode w = some (.pushb (field w 0 8)) := by
  have hw := decode_reads w
  generalize decode w = read at hw ⊢
  cases hw <;> first | rfl | omega

theorem decode_rdi {w : Word} (h : w.toNat / 2 ^ 10 = 0x200000) : decode w = some (.rdi (field w 0 10)) := by
  have hw := decode_reads w
  generalize decode w = read at hw ⊢
  cases hw <;> first | rfl | omega

theorem decode_rdb {w : Word} (h : w.toNat / 2 ^ 9 = 0x480000) : decode w = some (.rdb (field w 0 9)) := by
  have hw := decode_reads w
  generalize decode w = read at hw ⊢
  cases hw <;> first | rfl | omega

theorem decode_rdd {w : Word} (h : w.toNat / 2 ^ 12 = 0xA0000) : decode w = some (.rdd (field w 0 12)) := by
  have hw := decode_reads w
  generalize decode w = read at hw ⊢
  cases hw <;> first | rfl | omega

/-! ### The encoder in numbers -/

theorem encode_toNat (i : Instr) :
    (encode i).toNat =
      match i with
      | .nop => 0
      | .quant r g b => 0x10000000 + r.toNat * 0x10000 + g.toNat * 0x100 + b.toNat
      | .pushi idx => 0x20000000 + idx.toNat
      | .pushb byte => 0x30000000 + byte.toNat
      | .enc => 0x40000000
      | .dec => 0x50000000
      | .recon => 0x60000000
      | .clr mask => 0x70000000 + mask.toNat
      | .rdi addr => 0x80000000 + addr.toNat
      | .rdb addr => 0x90000000 + addr.toNat
      | .rdd addr => 0xA0000000 + addr.toNat
      | .rdstat => 0xB0000000 := by
  cases i <;> simp only [encode, toNat_append_eq_add, BitVec.toNat_ofNat] <;> omega

/-- A field of a word is known by its number. -/
theorem field_eq_of_toNat {w : Word} {lo width : Nat} {v : BitVec width} (h : w.toNat / 2 ^ lo % 2 ^ width = v.toNat) :
    field w lo width = v :=
  BitVec.eq_of_toNat_eq (by rw [field_toNat, h])

end Sys2Proof
end

