-- ==== Sys2Proof/Laws/State.lean ====
section
/-! SUPPORT. Laws/State.lean: what each field is after each named update of State, true by definition. -/

namespace Sys2Proof.Machine

/-! ### answer -/

@[simp] theorem State.answer_cfg (s : State) (resp : Word) : (s.answer resp).cfg = s.cfg := rfl
@[simp] theorem State.answer_ibuf (s : State) (resp : Word) : (s.answer resp).ibuf = s.ibuf := rfl
@[simp] theorem State.answer_icnt (s : State) (resp : Word) : (s.answer resp).icnt = s.icnt := rfl
@[simp] theorem State.answer_bbuf (s : State) (resp : Word) : (s.answer resp).bbuf = s.bbuf := rfl
@[simp] theorem State.answer_bcnt (s : State) (resp : Word) : (s.answer resp).bcnt = s.bcnt := rfl
@[simp] theorem State.answer_dbuf (s : State) (resp : Word) : (s.answer resp).dbuf = s.dbuf := rfl
@[simp] theorem State.answer_dvalid (s : State) (resp : Word) : (s.answer resp).dvalid = s.dvalid := rfl
@[simp] theorem State.answer_inputs (s : State) (resp : Word) : (s.answer resp).inputs = s.inputs := rfl
@[simp] theorem State.answer_responses (s : State) (resp : Word) : (s.answer resp).responses = 
    s.responses ++ [resp] := rfl

/-! ### pushIndex -/

@[simp] theorem State.pushIndex_cfg (s : State) (idx : PaletteIndex) : (s.pushIndex idx).cfg = s.cfg := rfl
@[simp] theorem State.pushIndex_ibuf (s : State) (idx : PaletteIndex) : (s.pushIndex idx).ibuf = 
    if s.icnt.val < npix then Memory.write s.ibuf s.icnt.val idx else s.ibuf := rfl
@[simp] theorem State.pushIndex_icnt (s : State) (idx : PaletteIndex) : (s.pushIndex idx).icnt = 
    bump s.icnt := rfl
@[simp] theorem State.pushIndex_bbuf (s : State) (idx : PaletteIndex) : (s.pushIndex idx).bbuf = s.bbuf := rfl
@[simp] theorem State.pushIndex_bcnt (s : State) (idx : PaletteIndex) : (s.pushIndex idx).bcnt = s.bcnt := rfl
@[simp] theorem State.pushIndex_dbuf (s : State) (idx : PaletteIndex) : (s.pushIndex idx).dbuf = s.dbuf := rfl
@[simp] theorem State.pushIndex_dvalid (s : State) (idx : PaletteIndex) : (s.pushIndex idx).dvalid = s.dvalid := rfl
@[simp] theorem State.pushIndex_inputs (s : State) (idx : PaletteIndex) : (s.pushIndex idx).inputs = s.inputs := rfl
@[simp] theorem State.pushIndex_responses (s : State) (idx : PaletteIndex) : (s.pushIndex idx).responses = s.responses := rfl

/-! ### pushByte -/

@[simp] theorem State.pushByte_cfg (s : State) (byte : Byte) : (s.pushByte byte).cfg = s.cfg := rfl
@[simp] theorem State.pushByte_ibuf (s : State) (byte : Byte) : (s.pushByte byte).ibuf = s.ibuf := rfl
@[simp] theorem State.pushByte_icnt (s : State) (byte : Byte) : (s.pushByte byte).icnt = s.icnt := rfl
@[simp] theorem State.pushByte_bbuf (s : State) (byte : Byte) : (s.pushByte byte).bbuf = 
    if s.bcnt.val < nbyte then Memory.write s.bbuf s.bcnt.val byte else s.bbuf := rfl
@[simp] theorem State.pushByte_bcnt (s : State) (byte : Byte) : (s.pushByte byte).bcnt = 
    bump s.bcnt := rfl
@[simp] theorem State.pushByte_dbuf (s : State) (byte : Byte) : (s.pushByte byte).dbuf = s.dbuf := rfl
@[simp] theorem State.pushByte_dvalid (s : State) (byte : Byte) : (s.pushByte byte).dvalid = s.dvalid := rfl
@[simp] theorem State.pushByte_inputs (s : State) (byte : Byte) : (s.pushByte byte).inputs = s.inputs := rfl
@[simp] theorem State.pushByte_responses (s : State) (byte : Byte) : (s.pushByte byte).responses = s.responses := rfl

/-! ### clear -/

@[simp] theorem State.clear_cfg (s : State) (mask : BitVec 3) : (s.clear mask).cfg = s.cfg := rfl
@[simp] theorem State.clear_ibuf (s : State) (mask : BitVec 3) : (s.clear mask).ibuf = s.ibuf := rfl
@[simp] theorem State.clear_icnt (s : State) (mask : BitVec 3) : (s.clear mask).icnt = 
    if mask.getLsbD 0 then 0 else s.icnt := rfl
@[simp] theorem State.clear_bbuf (s : State) (mask : BitVec 3) : (s.clear mask).bbuf = s.bbuf := rfl
@[simp] theorem State.clear_bcnt (s : State) (mask : BitVec 3) : (s.clear mask).bcnt = 
    if mask.getLsbD 1 then 0 else s.bcnt := rfl
@[simp] theorem State.clear_dbuf (s : State) (mask : BitVec 3) : (s.clear mask).dbuf = s.dbuf := rfl
@[simp] theorem State.clear_dvalid (s : State) (mask : BitVec 3) : (s.clear mask).dvalid = 
    if mask.getLsbD 2 then false else s.dvalid := rfl
@[simp] theorem State.clear_inputs (s : State) (mask : BitVec 3) : (s.clear mask).inputs = s.inputs := rfl
@[simp] theorem State.clear_responses (s : State) (mask : BitVec 3) : (s.clear mask).responses = s.responses := rfl

/-! ### encoded -/

@[simp] theorem State.encoded_cfg (s : State) : (s.encoded).cfg = s.cfg := rfl
@[simp] theorem State.encoded_ibuf (s : State) : (s.encoded).ibuf = s.ibuf := rfl
@[simp] theorem State.encoded_icnt (s : State) : (s.encoded).icnt = s.icnt := rfl
@[simp] theorem State.encoded_bbuf (s : State) : (s.encoded).bbuf = 
    Memory.fill nbyte (packByte (streamBit s)) := rfl
@[simp] theorem State.encoded_bcnt (s : State) : (s.encoded).bcnt = 
    384 := rfl
@[simp] theorem State.encoded_dbuf (s : State) : (s.encoded).dbuf = s.dbuf := rfl
@[simp] theorem State.encoded_dvalid (s : State) : (s.encoded).dvalid = s.dvalid := rfl
@[simp] theorem State.encoded_inputs (s : State) : (s.encoded).inputs = s.inputs := rfl
@[simp] theorem State.encoded_responses (s : State) : (s.encoded).responses = s.responses := rfl

/-! ### decoded -/

@[simp] theorem State.decoded_cfg (s : State) : (s.decoded).cfg = s.cfg := rfl
@[simp] theorem State.decoded_ibuf (s : State) : (s.decoded).ibuf = s.ibuf := rfl
@[simp] theorem State.decoded_icnt (s : State) : (s.decoded).icnt = s.icnt := rfl
@[simp] theorem State.decoded_bbuf (s : State) : (s.decoded).bbuf = s.bbuf := rfl
@[simp] theorem State.decoded_bcnt (s : State) : (s.decoded).bcnt = s.bcnt := rfl
@[simp] theorem State.decoded_dbuf (s : State) : (s.decoded).dbuf = 
    Memory.fill nbit (extractedBit s) := rfl
@[simp] theorem State.decoded_dvalid (s : State) : (s.decoded).dvalid = 
    true := rfl
@[simp] theorem State.decoded_inputs (s : State) : (s.decoded).inputs = s.inputs := rfl
@[simp] theorem State.decoded_responses (s : State) : (s.decoded).responses = s.responses := rfl

/-! ### reconstructed -/

@[simp] theorem State.reconstructed_cfg (s : State) : (s.reconstructed).cfg = s.cfg := rfl
@[simp] theorem State.reconstructed_ibuf (s : State) : (s.reconstructed).ibuf = 
    Memory.fill npix (fun i => indexOfCode s.cfg (pixelCode s i)) := rfl
@[simp] theorem State.reconstructed_icnt (s : State) : (s.reconstructed).icnt = 
    1024 := rfl
@[simp] theorem State.reconstructed_bbuf (s : State) : (s.reconstructed).bbuf = s.bbuf := rfl
@[simp] theorem State.reconstructed_bcnt (s : State) : (s.reconstructed).bcnt = s.bcnt := rfl
@[simp] theorem State.reconstructed_dbuf (s : State) : (s.reconstructed).dbuf = s.dbuf := rfl
@[simp] theorem State.reconstructed_dvalid (s : State) : (s.reconstructed).dvalid = s.dvalid := rfl
@[simp] theorem State.reconstructed_inputs (s : State) : (s.reconstructed).inputs = s.inputs := rfl
@[simp] theorem State.reconstructed_responses (s : State) : (s.reconstructed).responses = s.responses := rfl

/-! ### afterReset -/

@[simp] theorem State.afterReset_cfg (s : State) : (s.afterReset).cfg = s.cfg := rfl
@[simp] theorem State.afterReset_ibuf (s : State) : (s.afterReset).ibuf = 
    [] := rfl
@[simp] theorem State.afterReset_icnt (s : State) : (s.afterReset).icnt = 
    0 := rfl
@[simp] theorem State.afterReset_bbuf (s : State) : (s.afterReset).bbuf = 
    [] := rfl
@[simp] theorem State.afterReset_bcnt (s : State) : (s.afterReset).bcnt = 
    0 := rfl
@[simp] theorem State.afterReset_dbuf (s : State) : (s.afterReset).dbuf = 
    [] := rfl
@[simp] theorem State.afterReset_dvalid (s : State) : (s.afterReset).dvalid = 
    false := rfl
@[simp] theorem State.afterReset_inputs (s : State) : (s.afterReset).inputs = s.inputs := rfl
@[simp] theorem State.afterReset_responses (s : State) : (s.afterReset).responses = s.responses := rfl

/-! ### withNextCommand -/

@[simp] theorem State.withNextCommand_cfg (s : State) (cmd : Word) : (s.withNextCommand cmd).cfg = s.cfg := rfl
@[simp] theorem State.withNextCommand_ibuf (s : State) (cmd : Word) : (s.withNextCommand cmd).ibuf = s.ibuf := rfl
@[simp] theorem State.withNextCommand_icnt (s : State) (cmd : Word) : (s.withNextCommand cmd).icnt = s.icnt := rfl
@[simp] theorem State.withNextCommand_bbuf (s : State) (cmd : Word) : (s.withNextCommand cmd).bbuf = s.bbuf := rfl
@[simp] theorem State.withNextCommand_bcnt (s : State) (cmd : Word) : (s.withNextCommand cmd).bcnt = s.bcnt := rfl
@[simp] theorem State.withNextCommand_dbuf (s : State) (cmd : Word) : (s.withNextCommand cmd).dbuf = s.dbuf := rfl
@[simp] theorem State.withNextCommand_dvalid (s : State) (cmd : Word) : (s.withNextCommand cmd).dvalid = s.dvalid := rfl
@[simp] theorem State.withNextCommand_inputs (s : State) (cmd : Word) : (s.withNextCommand cmd).inputs = 
    .command cmd :: s.inputs := rfl
@[simp] theorem State.withNextCommand_responses (s : State) (cmd : Word) : (s.withNextCommand cmd).responses = s.responses := rfl

/-! ### The host's queue popped -/

@[simp] theorem State.index_setInputs (s : State) (q : List HostEvent) (i : Nat) :
    State.index { s with inputs := q } i = s.index i := rfl
@[simp] theorem State.byte_setInputs (s : State) (q : List HostEvent) (n : Nat) :
    State.byte { s with inputs := q } n = s.byte n := rfl
@[simp] theorem State.bit_setInputs (s : State) (q : List HostEvent) (j : Nat) :
    State.bit { s with inputs := q } j = s.bit j := rfl

/-! ### Entries after an update that leaves the buffer alone -/

@[simp] theorem State.answer_index (s : State) (resp : Word) (i : Nat) : (s.answer resp).index i = s.index i := rfl
@[simp] theorem State.answer_byte (s : State) (resp : Word) (n : Nat) : (s.answer resp).byte n = s.byte n := rfl
@[simp] theorem State.answer_bit (s : State) (resp : Word) (j : Nat) : (s.answer resp).bit j = s.bit j := rfl
@[simp] theorem State.clear_index (s : State) (mask : BitVec 3) (i : Nat) : (s.clear mask).index i = s.index i := rfl
@[simp] theorem State.clear_byte (s : State) (mask : BitVec 3) (n : Nat) : (s.clear mask).byte n = s.byte n := rfl
@[simp] theorem State.clear_bit (s : State) (mask : BitVec 3) (j : Nat) : (s.clear mask).bit j = s.bit j := rfl
@[simp] theorem State.pushIndex_byte (s : State) (idx : PaletteIndex) (n : Nat) : (s.pushIndex idx).byte n = s.byte n := rfl
@[simp] theorem State.pushIndex_bit (s : State) (idx : PaletteIndex) (j : Nat) : (s.pushIndex idx).bit j = s.bit j := rfl
@[simp] theorem State.pushByte_index (s : State) (byte : Byte) (i : Nat) : (s.pushByte byte).index i = s.index i := rfl
@[simp] theorem State.pushByte_bit (s : State) (byte : Byte) (j : Nat) : (s.pushByte byte).bit j = s.bit j := rfl
@[simp] theorem State.encoded_index (s : State) (i : Nat) : s.encoded.index i = s.index i := rfl
@[simp] theorem State.encoded_bit (s : State) (j : Nat) : s.encoded.bit j = s.bit j := rfl
@[simp] theorem State.decoded_index (s : State) (i : Nat) : s.decoded.index i = s.index i := rfl
@[simp] theorem State.decoded_byte (s : State) (n : Nat) : s.decoded.byte n = s.byte n := rfl
@[simp] theorem State.reconstructed_byte (s : State) (n : Nat) : s.reconstructed.byte n = s.byte n := rfl
@[simp] theorem State.reconstructed_bit (s : State) (j : Nat) : s.reconstructed.bit j = s.bit j := rfl

end Sys2Proof.Machine
end

