-- ==== Sys2Proof/Laws/Memory.lean ====
section
/-! SUPPORT. Laws/Memory.lean: reads after writes, and the canonical form of a buffer. -/

namespace Sys2Proof.Machine

variable {w size : Nat}

/-! ### Reads after a write -/

theorem Memory.lookup_write_self (m : Memory w) (a : Nat) (v : BitVec w) :
    Memory.lookup (Memory.write m a v) a = some v := by
  induction m with
  | nil => simp [Memory.write, Memory.lookup]
  | cons c rest ih =>
    obtain ⟨b, u⟩ := c
    simp only [Memory.write]
    split
    · simp [Memory.lookup]
    · split
      · simp [Memory.lookup]
      · rename_i _ hne
        simp [Memory.lookup, hne, ih]

theorem Memory.lookup_write_of_ne (m : Memory w) {a a' : Nat} (v : BitVec w) (h : a' ≠ a) :
    Memory.lookup (Memory.write m a v) a' = Memory.lookup m a' := by
  induction m with
  | nil => simp [Memory.write, Memory.lookup, h]
  | cons c rest ih =>
    obtain ⟨b, u⟩ := c
    simp only [Memory.write]
    split
    · simp [Memory.lookup, h]
    · split
      · rename_i _ he
        subst he
        simp [Memory.lookup, h]
      · simp [Memory.lookup, ih]

/-! ### Reads of a buffer written whole -/

theorem Memory.lookup_map_range' (f : Nat → BitVec w) (lo n a : Nat) :
    Memory.lookup ((List.range' lo n).map fun i => (i, f i)) a
      = if lo ≤ a ∧ a < lo + n then some (f a) else none := by
  induction n generalizing lo with
  | zero => simp [Memory.lookup]
  | succ n ih =>
    simp only [List.range'_succ, List.map_cons, Memory.lookup, ih]
    by_cases h : a = lo
    · subst h; simp
    · simp only [h, if_false]
      congr 1
      simp only [eq_iff_iff]
      omega

theorem Memory.lookup_fill (f : Nat → BitVec w) (a : Nat) :
    Memory.lookup (Memory.fill size f) a = if a < size then some (f a) else none := by
  simp only [Memory.fill, List.range_eq_range', Memory.lookup_map_range']
  simp

theorem Memory.entry_fill (f : Nat → BitVec w) {a : Nat} (h : a < size) :
    Memory.entry (Memory.fill size f) a = f a := by
  simp [Memory.entry, Memory.lookup_fill, h]

theorem Memory.entry_write_self (m : Memory w) (a : Nat) (v : BitVec w) :
    Memory.entry (Memory.write m a v) a = v := by
  simp [Memory.entry, Memory.lookup_write_self]

theorem Memory.entry_write_of_ne (m : Memory w) {a a' : Nat} (v : BitVec w) (h : a' ≠ a) :
    Memory.entry (Memory.write m a v) a' = Memory.entry m a' := by
  simp [Memory.entry, Memory.lookup_write_of_ne m v h]

/-! ### The canonical form is kept -/

theorem Memory.risingFrom_write (m : Memory w) {lo a : Nat} (v : BitVec w)
    (hm : Memory.risingFrom size lo m = true) (hlo : lo ≤ a) (ha : a < size) :
    Memory.risingFrom size lo (Memory.write m a v) = true := by
  induction m generalizing lo with
  | nil => simp [Memory.write, Memory.risingFrom, hlo, ha]
  | cons c rest ih =>
    obtain ⟨b, u⟩ := c
    simp only [Memory.risingFrom, Bool.and_eq_true, decide_eq_true_eq] at hm
    obtain ⟨⟨hb, hbs⟩, hr⟩ := hm
    simp only [Memory.write]
    split
    · rename_i hab
      simp [Memory.risingFrom, hlo, ha, hab, hbs, hr]
    · split
      · rename_i _ he
        subst he
        simp [Memory.risingFrom, hlo, ha, hr]
      · have : b + 1 ≤ a := by omega
        simp [Memory.risingFrom, hb, hbs, ih hr this]

theorem Memory.wf_write (m : Memory w) {a : Nat} (v : BitVec w) (hm : Memory.wf size m = true) (ha : a < size) :
    Memory.wf size (Memory.write m a v) = true :=
  Memory.risingFrom_write m v hm (Nat.zero_le a) ha

theorem Memory.risingFrom_map_range' (f : Nat → BitVec w) (lo n : Nat) (h : lo + n ≤ size) :
    Memory.risingFrom size lo ((List.range' lo n).map fun i => (i, f i)) = true := by
  induction n generalizing lo with
  | zero => rfl
  | succ n ih =>
    simp only [List.range'_succ, List.map_cons, Memory.risingFrom, Bool.and_eq_true, decide_eq_true_eq]
    exact ⟨⟨Nat.le_refl lo, by omega⟩, ih (lo + 1) (by omega)⟩

theorem Memory.wf_fill (f : Nat → BitVec w) : Memory.wf size (Memory.fill size f) = true := by
  simp only [Memory.fill, List.range_eq_range']
  exact Memory.risingFrom_map_range' f 0 size (by omega)

/-- Every operation on a buffer keeps its canonical form: the empty buffer, a write inside the space, a whole write. -/
theorem Memory.wf_nil : Memory.wf size ([] : Memory w) = true := rfl

/-! ### Equal reads, equal buffers -/

theorem Memory.lookup_eq_none_of_lt {m : Memory w} {lo a : Nat} (hm : Memory.risingFrom size lo m = true) (h : a < lo) :
    Memory.lookup m a = none := by
  induction m generalizing lo with
  | nil => rfl
  | cons c rest ih =>
    obtain ⟨b, u⟩ := c
    simp only [Memory.risingFrom, Bool.and_eq_true, decide_eq_true_eq] at hm
    have : a ≠ b := by omega
    simp [Memory.lookup, this, ih hm.2 (by omega)]

theorem Memory.ext_of_risingFrom {m m' : Memory w} {lo : Nat} (hm : Memory.risingFrom size lo m = true)
    (hm' : Memory.risingFrom size lo m' = true) (h : ∀ a, Memory.lookup m a = Memory.lookup m' a) : m = m' := by
  induction m generalizing m' lo with
  | nil =>
    cases m' with
    | nil => rfl
    | cons c rest => simpa [Memory.lookup] using h c.1
  | cons c rest ih =>
    obtain ⟨b, u⟩ := c
    cases m' with
    | nil => simpa [Memory.lookup] using h b
    | cons c' rest' =>
      obtain ⟨b', u'⟩ := c'
      simp only [Memory.risingFrom, Bool.and_eq_true, decide_eq_true_eq] at hm hm'
      have hb : b = b' := by
        rcases Nat.lt_trichotomy b b' with hlt | heq | hgt
        · have := h b
          simp [Memory.lookup, Nat.ne_of_lt hlt, Memory.lookup_eq_none_of_lt hm'.2 (by omega : b < b' + 1)] at this
        · exact heq
        · have := h b'
          simp [Memory.lookup, Nat.ne_of_lt hgt, Memory.lookup_eq_none_of_lt hm.2 (by omega : b' < b + 1)] at this
      subst hb
      have hu : u = u' := by simpa [Memory.lookup] using h b
      subst hu
      have : rest = rest' := ih hm.2 hm'.2 fun a => by
        by_cases ha : a = b
        · subst ha
          rw [Memory.lookup_eq_none_of_lt hm.2 (by omega), Memory.lookup_eq_none_of_lt hm'.2 (by omega)]
        · simpa [Memory.lookup, ha] using h a
      rw [this]

/-- Buffers in canonical form that read alike are equal data. -/
theorem Memory.ext_of_wf {m m' : Memory w} (hm : Memory.wf size m = true) (hm' : Memory.wf size m' = true)
    (h : ∀ a, Memory.lookup m a = Memory.lookup m' a) : m = m' :=
  Memory.ext_of_risingFrom hm hm' h

end Sys2Proof.Machine
end

