-- ==== Sys2Proof/Laws/Exec.lean ====
section
/-! SUPPORT. Laws/Exec.lean: what the shared operations answer, and once for all what a command and a step can do. -/

namespace Sys2Proof.Machine

/-! ### Responses -/

@[simp] theorem respond_eq (data : ResponseData) (s : State) :
    respond data s = .next (s.answer (responseWord .ok data)) := rfl

@[simp] theorem raise_eq (e : ErrorCode) (s : State) : raise e s = .next (s.answer (responseWord e 0)) := rfl

theorem responseWord_toNat (e : ErrorCode) (data : ResponseData) :
    (responseWord e data).toNat = e.code.toNat * 2 ^ 28 + data.toNat := toNat_append_eq_add _ _

theorem responseWord_err (e : ErrorCode) (data : ResponseData) : (responseWord e data).extractLsb' 28 4 = e.code := by
  apply BitVec.eq_of_toNat_eq
  rw [BitVec.extractLsb'_toNat, responseWord_toNat, Nat.shiftRight_eq_div_pow]
  have := data.isLt
  have := e.code.isLt
  omega

theorem responseWord_data (e : ErrorCode) (data : ResponseData) : (responseWord e data).extractLsb' 0 28 = data := by
  apply BitVec.eq_of_toNat_eq
  rw [BitVec.extractLsb'_toNat, responseWord_toNat, Nat.shiftRight_eq_div_pow]
  have := data.isLt
  omega

theorem responseWord_ok_zero : responseWord .ok 0 = 0x00000000 := by decide
theorem responseWord_illegal : responseWord .illegal 0 = 0x10000000 := by decide
theorem responseWord_length : responseWord .length 0 = 0x20000000 := by decide
theorem responseWord_range : responseWord .range 0 = 0x30000000 := by decide
theorem responseWord_noData : responseWord .noData 0 = 0x40000000 := by decide

/-- An OK response whose DATA is a narrow value zero-extended is that value in the low bits of the word. -/
theorem responseWord_ok_setWidth {n : Nat} (v : BitVec n) (h : n ≤ 28) :
    responseWord .ok (v.setWidth 28) = v.setWidth 32 := by
  apply BitVec.eq_of_toNat_eq
  have hv : v.toNat < 2 ^ 28 := Nat.lt_of_lt_of_le v.isLt (Nat.pow_le_pow_right (by decide) h)
  rw [responseWord_toNat, BitVec.toNat_setWidth, BitVec.toNat_setWidth, Nat.mod_eq_of_lt hv,
    Nat.mod_eq_of_lt (by omega)]
  simp [ErrorCode.code]

/-- Every palette index is one of the 8 (R16). -/
theorem mem_paletteIndices (q : PaletteIndex) : q ∈ ([0, 1, 2, 3, 4, 5, 6, 7] : List PaletteIndex) := by
  revert q
  decide

/-! ### Written entries -/

theorem State.indexWritten_iff {s : State} {a : Nat} : s.indexWritten a = true ↔ a < min s.icnt.val npix := by
  simp [State.indexWritten]

theorem State.byteWritten_iff {s : State} {a : Nat} : s.byteWritten a = true ↔ a < min s.bcnt.val nbyte := by
  simp [State.byteWritten]

theorem byteInRange_iff {a : Nat} : byteInRange a = true ↔ a < nbyte := by simp [byteInRange]

theorem bitInRange_iff {a : Nat} : bitInRange a = true ↔ a < nbit := by simp [bitInRange]

@[simp] theorem bump_val (c : Counter) : (bump c).val = min (c.val + 1) 2047 := rfl

/-! ### What a command can do -/

/-- The writes a command commits: the state its answer is added to. -/
inductive Effect (s : State) : Instr → State → Prop where
  | none (i : Instr) : Effect s i s
  | pushi (idx : PaletteIndex) : Effect s (.pushi idx) (s.pushIndex idx)
  | pushb (byte : Byte) : Effect s (.pushb byte) (s.pushByte byte)
  | enc (h : s.icnt.val = npix) : Effect s .enc s.encoded
  | dec (h : s.bcnt.val = nbyte) : Effect s .dec s.decoded
  | recon (h : s.cfg.hasRecon = true) (hd : s.dvalid = true) : Effect s .recon s.reconstructed
  | clr (mask : BitVec 3) : Effect s (.clr mask) (s.clear mask)

/-- Every command answers a next state: its effect and one response, or one error and no effect. -/
theorem exec_cases (i : Instr) (s : State) :
    (∃ u data, Effect s i u ∧ exec i s = .next (u.answer (responseWord .ok data)))
      ∨ ∃ e, e ≠ ErrorCode.ok ∧ exec i s = .next (s.answer (responseWord e 0)) := by
  cases i with
  | nop => exact .inl ⟨s, 0, .none _, rfl⟩
  | quant r g b => exact .inl ⟨s, _, .none _, rfl⟩
  | pushi idx => exact .inl ⟨_, 0, .pushi idx, rfl⟩
  | pushb byte => exact .inl ⟨_, 0, .pushb byte, rfl⟩
  | enc =>
    by_cases h : s.icnt.val = npix
    · exact .inl ⟨_, 0, .enc h, by simp [exec, execEnc, h]⟩
    · exact .inr ⟨.length, by decide, by simp [exec, execEnc, h]⟩
  | dec =>
    by_cases h : s.bcnt.val = nbyte
    · exact .inl ⟨_, 0, .dec h, by simp [exec, execDec, h]⟩
    · exact .inr ⟨.length, by decide, by simp [exec, execDec, h]⟩
  | recon =>
    by_cases h : s.cfg.hasRecon = true
    · by_cases hd : s.dvalid = true
      · exact .inl ⟨_, 0, .recon h hd, by simp [exec, execRecon, h, hd]⟩
      · exact .inr ⟨.noData, by decide, by simp [exec, execRecon, h, hd]⟩
    · exact .inr ⟨.illegal, by decide, by simp [exec, execRecon, h]⟩
  | clr mask => exact .inl ⟨_, 0, .clr mask, rfl⟩
  | rdi addr =>
    by_cases h : s.indexWritten addr.toNat = true
    · exact .inl ⟨s, _, .none _, by simp only [exec, execRdi, h, if_true]; rfl⟩
    · exact .inr ⟨.noData, by decide, by simp [exec, execRdi, h]⟩
  | rdb addr =>
    by_cases hr : byteInRange addr.toNat = true
    · by_cases h : s.byteWritten addr.toNat = true
      · exact .inl ⟨s, _, .none _, by simp only [exec, execRdb, hr, h, if_true]; rfl⟩
      · exact .inr ⟨.noData, by decide, by simp [exec, execRdb, hr, h]⟩
    · exact .inr ⟨.range, by decide, by simp [exec, execRdb, hr]⟩
  | rdd addr =>
    by_cases hr : bitInRange addr.toNat = true
    · by_cases h : s.dvalid = true
      · exact .inl ⟨s, _, .none _, by simp only [exec, execRdd, hr, h]; rfl⟩
      · exact .inr ⟨.noData, by decide, by simp [exec, execRdd, hr, h]⟩
    · exact .inr ⟨.range, by decide, by simp [exec, execRdd, hr]⟩
  | rdstat => exact .inl ⟨s, _, .none _, rfl⟩

/-! ### What a step can do -/

theorem performWord_of_decode {w : Word} {i : Instr} (h : decode w = some i) (s : State) : performWord w s = exec i s := by
  rw [performWord, h]

theorem performWord_of_undecoded {w : Word} (h : decode w = none) (s : State) :
    performWord w s = .next (s.answer (responseWord .illegal 0)) := by
  rw [performWord, h, raise_eq]

/-- A word is performed as a command's effect with an OK answer, or answered with an error and no effect. -/
theorem performWord_cases (w : Word) (s : State) :
    (∃ i u data, decode w = some i ∧ Effect s i u ∧ performWord w s = .next (u.answer (responseWord .ok data)))
      ∨ ∃ e, e ≠ ErrorCode.ok ∧ performWord w s = .next (s.answer (responseWord e 0)) := by
  cases h : decode w with
  | none => exact .inr ⟨.illegal, by decide, performWord_of_undecoded h s⟩
  | some i =>
    rw [performWord_of_decode h]
    rcases exec_cases i s with ⟨u, data, hu, he⟩ | he
    · exact .inl ⟨i, u, data, rfl, hu, he⟩
    · exact .inr he

theorem PerformedAs.of_decodesAs {op : BitVec 4} {bits : Nat} {build : BitVec bits → Instr} (h : DecodesAs op bits build) :
    PerformedAs op bits build := by
  intro w s hw
  have hd := h w hw
  split at hd
  · rw [performWord_of_decode hd, if_pos ‹_›]
  · rw [performWord_of_undecoded hd, if_neg ‹_›, responseWord_illegal, State.answer]

/-- What a command answers and does is the same whatever was answered before it (R201). -/
theorem exec_setResponses (i : Instr) (s : State) (before : List Word) :
    ∃ (u : State) (resp : Word), exec i s = .next (u.answer resp) ∧ u.responses = s.responses ∧
      exec i { s with responses := before } = .next (State.answer { u with responses := before } resp) := by
  cases i with
  | nop | quant | pushi | pushb | clr | rdstat => exact ⟨_, _, rfl, rfl, rfl⟩
  | enc => simp only [exec, execEnc]; split <;> exact ⟨_, _, rfl, rfl, rfl⟩
  | dec => simp only [exec, execDec]; split <;> exact ⟨_, _, rfl, rfl, rfl⟩
  | recon =>
    simp only [exec, execRecon]
    split
    · exact ⟨_, _, rfl, rfl, rfl⟩
    · split <;> exact ⟨_, _, rfl, rfl, rfl⟩
  | rdi a =>
    simp only [exec, execRdi, State.indexWritten]
    by_cases h : a.toNat < min s.icnt.val npix <;> simp only [h, decide_true, decide_false] <;> exact ⟨s, _, rfl, rfl, rfl⟩
  | rdb a =>
    simp only [exec, execRdb, State.byteWritten]
    split
    · exact ⟨s, _, rfl, rfl, rfl⟩
    · by_cases h : a.toNat < min s.bcnt.val nbyte <;> simp only [h, decide_true, decide_false] <;>
        exact ⟨s, _, rfl, rfl, rfl⟩
  | rdd =>
    simp only [exec, execRdd]
    split
    · exact ⟨s, _, rfl, rfl, rfl⟩
    · split <;> exact ⟨s, _, rfl, rfl, rfl⟩

theorem step_of_admitted {s : State} (h : s.cfg.Admitted) : step s = takeOldest s := if_pos h

/-- What a step that goes on did: nothing, a reset, or one word performed on the state without it. -/
theorem step_cases {s t : State} (h : step s = .next t) :
    s.cfg.Admitted ∧
      ((s.inputs = [] ∧ t = s)
      ∨ (∃ rest, s.inputs = .reset :: rest ∧ t = State.afterReset { s with inputs := rest })
      ∨ ∃ w rest, s.inputs = .command w :: rest ∧ performWord w { s with inputs := rest } = .next t) := by
  by_cases hc : s.cfg.Admitted
  · refine ⟨hc, ?_⟩
    rw [step_of_admitted hc, takeOldest] at h
    split at h
    · exact .inl ⟨‹_›, (Host.Outcome.next.inj h).symm⟩
    · rename_i e rest hq
      cases e with
      | reset => exact .inr (.inl ⟨rest, hq, (Host.Outcome.next.inj h).symm⟩)
      | command w => exact .inr (.inr ⟨w, rest, hq, h⟩)
  · rw [step, if_neg hc] at h
    cases h

end Sys2Proof.Machine
end

