-- ==== Sys2Proof/Laws/Bitplane.lean ====
section
/-! SUPPORT. Laws/Bitplane.lean: the bits of a packed byte, what ENC, DEC and RECON leave in an entry, and the reverse mapping. -/

namespace Sys2Proof.Machine

/-! ### Packing and regrouping eight bits -/

/-- The eight bits of a sum of eight weighted bits are those bits, the first the most significant. -/
theorem packed_bits (b0 b1 b2 b3 b4 b5 b6 b7 : Bool) :
    let byte := BitVec.ofNat 8 (b0.toNat * 2 ^ 7 + (b1.toNat * 2 ^ 6 + (b2.toNat * 2 ^ 5 + (b3.toNat * 2 ^ 4
      + (b4.toNat * 2 ^ 3 + (b5.toNat * 2 ^ 2 + (b6.toNat * 2 ^ 1 + b7.toNat * 2 ^ 0)))))))
    byte.getLsbD 7 = b0 ∧ byte.getLsbD 6 = b1 ∧ byte.getLsbD 5 = b2 ∧ byte.getLsbD 4 = b3 ∧ byte.getLsbD 3 = b4
      ∧ byte.getLsbD 2 = b5 ∧ byte.getLsbD 1 = b6 ∧ byte.getLsbD 0 = b7 := by
  revert b0 b1 b2 b3 b4 b5 b6 b7
  decide

theorem packByte_eq (stream : Nat → Bool) (n : Nat) :
    packByte stream n
      = BitVec.ofNat 8 ((stream (8 * n + 0)).toNat * 2 ^ 7 + ((stream (8 * n + 1)).toNat * 2 ^ 6
        + ((stream (8 * n + 2)).toNat * 2 ^ 5 + ((stream (8 * n + 3)).toNat * 2 ^ 4 + ((stream (8 * n + 4)).toNat * 2 ^ 3
        + ((stream (8 * n + 5)).toNat * 2 ^ 2 + ((stream (8 * n + 6)).toNat * 2 ^ 1
        + (stream (8 * n + 7)).toNat * 2 ^ 0))))))) := rfl

/-- Bit 7 - u of chunk n is stream bit 8n + u (R123). -/
theorem packByte_getLsbD (stream : Nat → Bool) (n : Nat) {u : Nat} (h : u < 8) :
    (packByte stream n).getLsbD (7 - u) = stream (8 * n + u) := by
  have hb := packed_bits (stream (8 * n + 0)) (stream (8 * n + 1)) (stream (8 * n + 2)) (stream (8 * n + 3))
    (stream (8 * n + 4)) (stream (8 * n + 5)) (stream (8 * n + 6)) (stream (8 * n + 7))
  rw [packByte_eq]
  obtain ⟨h0, h1, h2, h3, h4, h5, h6, h7⟩ := hb
  interval_cases u <;> assumption

/-- The value of chunk n as a sum (R123, R124). -/
theorem packByte_toNat (stream : Nat → Bool) (n : Nat) :
    (packByte stream n).toNat = ((List.range 8).map fun u => (stream (8 * n + u)).toNat * 2 ^ (7 - u)).sum := by
  have hb (b : Bool) : b.toNat ≤ 1 := by cases b <;> decide
  have h : ((List.range 8).map fun u => (stream (8 * n + u)).toNat * 2 ^ (7 - u)).sum < 256 := by
    simp only [List.range_succ, List.range_zero, List.nil_append, List.cons_append, List.map_cons, List.map_nil,
      List.sum_cons, List.sum_nil]
    have := hb (stream (8 * n + 0)); have := hb (stream (8 * n + 1)); have := hb (stream (8 * n + 2))
    have := hb (stream (8 * n + 3)); have := hb (stream (8 * n + 4)); have := hb (stream (8 * n + 5))
    have := hb (stream (8 * n + 6)); have := hb (stream (8 * n + 7))
    omega
  rw [packByte, BitVec.toNat_ofNat, Nat.mod_eq_of_lt h]

/-- A chunk packed from the bits of a byte, most significant first, is the byte. -/
theorem packByte_of_bits {stream : Nat → Bool} {n : Nat} {byte : Byte}
    (h : ∀ u < 8, stream (8 * n + u) = byte.getLsbD (7 - u)) : packByte stream n = byte := by
  apply BitVec.eq_of_getLsbD_eq
  intro k hk
  have := packByte_getLsbD stream n (u := 7 - k) (by omega)
  rw [h _ (by omega)] at this
  rw [show 7 - (7 - k) = k by omega] at this
  exact this

/-! ### Entries after a whole write -/

theorem State.encoded_byte {s : State} {n : Nat} (h : n < nbyte) : s.encoded.byte n = packByte (streamBit s) n :=
  Memory.entry_fill _ h

theorem State.decoded_bitEntry {s : State} {j : Nat} (h : j < nbit) : s.decoded.bit j = extractedBit s j :=
  Memory.entry_fill _ h

theorem State.reconstructed_indexEntry {s : State} {i : Nat} (h : i < npix) :
    s.reconstructed.index i = indexOfCode s.cfg (pixelCode s i) :=
  Memory.entry_fill _ h

theorem State.pushIndex_indexEntry (s : State) (idx : PaletteIndex) (i : Nat) :
    (s.pushIndex idx).index i = if s.icnt.val < npix ∧ i = s.icnt.val then idx else s.index i := by
  by_cases h : s.icnt.val < npix
  · by_cases hi : i = s.icnt.val
    · simp only [State.index, State.pushIndex_ibuf, h, hi, if_true, true_and, Memory.entry_write_self]
    · simp only [State.index, State.pushIndex_ibuf, h, hi, if_true, and_false, if_false,
        Memory.entry_write_of_ne _ _ hi]
  · simp [State.index, h]

theorem State.pushByte_byteEntry (s : State) (byte : Byte) (n : Nat) :
    (s.pushByte byte).byte n = if s.bcnt.val < nbyte ∧ n = s.bcnt.val then byte else s.byte n := by
  by_cases h : s.bcnt.val < nbyte
  · by_cases hn : n = s.bcnt.val
    · simp only [State.byte, State.pushByte_bbuf, h, hn, if_true, true_and, Memory.entry_write_self]
    · simp only [State.byte, State.pushByte_bbuf, h, hn, if_true, and_false, if_false,
        Memory.entry_write_of_ne _ _ hn]
  · simp [State.byte, h]

/-! ### The reverse mapping -/

/-- Distinct bit-strings name every code: with 8 of them and 8 codes, each code is some index's. -/
theorem exists_index_of_code {c : Config} (h : c.DistinctBits) (code : BitString) : ∃ p, c.bits p = code := by
  have hinj : Function.Injective c.bits := fun p q => h p q
  exact (Finite.injective_iff_surjective.mp hinj) code

theorem bits_indexOfCode {c : Config} (h : c.DistinctBits) (code : BitString) : c.bits (indexOfCode c code) = code := by
  obtain ⟨p, hp⟩ := exists_index_of_code h code
  unfold indexOfCode
  cases hf : [0, 1, 2, 3, 4, 5, 6, 7].find? fun q => c.bits q == code with
  | none =>
    rw [List.find?_eq_none] at hf
    exact absurd (by simpa using hp) (hf p (mem_paletteIndices p))
  | some q => simpa using List.find?_some hf

/-- The reverse mapping undoes PALETTE_BITS where the bit-strings are distinct (R150, R151). -/
theorem indexOfCode_bits {c : Config} (h : c.DistinctBits) (p : PaletteIndex) : indexOfCode c (c.bits p) = p :=
  h _ _ (bits_indexOfCode h (c.bits p))

end Sys2Proof.Machine
end

