-- ==== Sys2Proof/Laws/PerInstr.lean ====
section
/-! SUPPORT. Laws/PerInstr.lean: the family RoundTrip, one lemma per command: the word of a command decodes to it, with every
operand at every value (30_encoding.md R61 to R65). -/

namespace Sys2Proof.Laws.RoundTrip

/-- The word of a command decodes to that command. -/
def Statement (i : Instr) : Prop := decode (encode i) = some i

theorem nop : Statement .nop := by unfold Statement; decide

theorem quant (r g b : Byte) : Statement (.quant r g b) := by
  have h := encode_toNat (.quant r g b)
  simp only at h
  rw [Statement, decode_quant (by omega), field_eq_of_toNat (v := r) (by omega), field_eq_of_toNat (v := g) (by omega),
    field_eq_of_toNat (v := b) (by omega)]

theorem pushi (idx : PaletteIndex) : Statement (.pushi idx) := by
  unfold Statement
  revert idx
  decide

theorem pushb (byte : Byte) : Statement (.pushb byte) := by
  have h := encode_toNat (.pushb byte)
  simp only at h
  rw [Statement, decode_pushb (by omega), field_eq_of_toNat (v := byte) (by omega)]

theorem enc : Statement .enc := by unfold Statement; decide

theorem dec : Statement .dec := by unfold Statement; decide

theorem recon : Statement .recon := by unfold Statement; decide

theorem clr (mask : BitVec 3) : Statement (.clr mask) := by
  unfold Statement
  revert mask
  decide

theorem rdi (addr : BitVec 10) : Statement (.rdi addr) := by
  have h := encode_toNat (.rdi addr)
  simp only at h
  rw [Statement, decode_rdi (by omega), field_eq_of_toNat (v := addr) (by omega)]

theorem rdb (addr : BitVec 9) : Statement (.rdb addr) := by
  have h := encode_toNat (.rdb addr)
  simp only at h
  rw [Statement, decode_rdb (by omega), field_eq_of_toNat (v := addr) (by omega)]

theorem rdd (addr : BitVec 12) : Statement (.rdd addr) := by
  have h := encode_toNat (.rdd addr)
  simp only at h
  rw [Statement, decode_rdd (by omega), field_eq_of_toNat (v := addr) (by omega)]

theorem rdstat : Statement .rdstat := by unfold Statement; decide

end Sys2Proof.Laws.RoundTrip
end

