-- ==== Sys2Proof/Laws/HostProcedure.lean ====
section
/-! SUPPORT. Laws/HostProcedure.lean: a command issued by the host is performed as itself, commands issued in order, and the
order of the grid. -/

namespace Sys2Proof.Machine

/-- An issued command is performed as itself: its word decodes to it. -/
theorem issue_eq_exec (i : Instr) (s : State) : issue i s = exec i s := by
  apply performWord_of_decode
  cases i with
  | nop => exact Laws.RoundTrip.nop
  | quant r g b => exact Laws.RoundTrip.quant r g b
  | pushi idx => exact Laws.RoundTrip.pushi idx
  | pushb byte => exact Laws.RoundTrip.pushb byte
  | enc => exact Laws.RoundTrip.enc
  | dec => exact Laws.RoundTrip.dec
  | recon => exact Laws.RoundTrip.recon
  | clr mask => exact Laws.RoundTrip.clr mask
  | rdi addr => exact Laws.RoundTrip.rdi addr
  | rdb addr => exact Laws.RoundTrip.rdb addr
  | rdd addr => exact Laws.RoundTrip.rdd addr
  | rdstat => exact Laws.RoundTrip.rdstat

@[simp] theorem Result.andThen_next (s : State) (f : State → Result) : Result.andThen (.next s) f = f s := rfl

theorem issueAll_nil (s : State) : issueAll [] s = .next s := rfl

theorem issueAll_cons {i : Instr} {is : List Instr} {s t : State} (h : issue i s = .next t) :
    issueAll (i :: is) s = issueAll is t := by
  simp [issueAll, h]

/-- DATA of the response just answered. -/
theorem lastData_answer (s : State) (e : ErrorCode) (data : ResponseData) :
    lastData (s.answer (responseWord e data)) = data := by
  simp [lastData, responseDataOf, field, responseWord_data]

/-- The rows of a grid laid end to end. -/
theorem flatMap_range_pairs (m n : Nat) (hn : 0 < n) :
    ((List.range m).flatMap fun x => (List.range n).map fun y => (x, y))
      = (List.range (n * m)).map fun i => (i / n, i % n) := by
  induction m with
  | zero => simp
  | succ m ih =>
    rw [List.range_succ, List.flatMap_append, ih, Nat.mul_succ, List.range_add, List.map_append, List.map_map]
    congr 1
    simp only [List.flatMap_cons, List.flatMap_nil, List.append_nil]
    apply List.map_congr_left
    intro y hy
    rw [List.mem_range] at hy
    simp only [Function.comp, Prod.mk.injEq]
    constructor
    · rw [Nat.add_comm, Nat.add_mul_div_left _ _ hn, Nat.div_eq_of_lt hy, Nat.zero_add]
    · rw [Nat.add_comm, Nat.add_mul_mod_self_left, Nat.mod_eq_of_lt hy]

/-- The grid order is the index order (R180). -/
theorem gridOrder_eq : gridOrder = (List.range 1024).map fun i => (i / 16, i % 16) :=
  flatMap_range_pairs 64 16 (by decide)

end Sys2Proof.Machine
end

