-- ==== Sys2Proof/Laws/Indistinguishable.lean ====
section
/-! SUPPORT. Laws/Indistinguishable.lean: two blocks the host cannot tell apart answer every command alike and stay so. -/

namespace Sys2Proof.Machine

theorem HostIndistinguishable.refl (s : State) : HostIndistinguishable s s :=
  ⟨rfl, rfl, rfl, rfl, fun _ _ => rfl, fun _ _ => rfl, fun _ _ _ => rfl⟩

/-- The relation reads the block only. -/
theorem HostIndistinguishable.of_sameBlock {s t s' t' : State} (h : HostIndistinguishable s t)
    (hs : SameBlock s s') (ht : SameBlock t t') : HostIndistinguishable s' t' where
  cfg := by rw [ht.cfg, h.cfg, hs.cfg]
  icnt := by rw [ht.icnt, h.icnt, hs.icnt]
  bcnt := by rw [ht.bcnt, h.bcnt, hs.bcnt]
  dvalid := by rw [ht.dvalid, h.dvalid, hs.dvalid]
  index := fun i hi => by
    rw [hs.icnt] at hi
    have := h.index i hi
    simp only [State.index] at this ⊢
    rw [ht.ibuf, hs.ibuf, this]
  byte := fun n hn => by
    rw [hs.bcnt] at hn
    have := h.byte n hn
    simp only [State.byte] at this ⊢
    rw [ht.bbuf, hs.bbuf, this]
  bit := fun hd j hj => by
    rw [hs.dvalid] at hd
    have := h.bit hd j hj
    simp only [State.bit] at this ⊢
    rw [ht.dbuf, hs.dbuf, this]

/-- ENC's bytes depend on the 1024 indices and PALETTE_BITS. -/
theorem streamBit_congr {s t : State} (hc : t.cfg = s.cfg) (hi : ∀ i < npix, t.index i = s.index i) (j : Nat) :
    streamBit t j = streamBit s j := by
  rw [streamBit, streamBit, hc, hi _ (Nat.mod_lt _ (by decide))]

/-- Related blocks answer a command alike and stay related. -/
theorem HostIndistinguishable.exec {s t : State} (h : HostIndistinguishable s t) (i : Instr) :
    ∃ (u v : State) (resp : Word), Machine.exec i s = .next (u.answer resp) ∧ Machine.exec i t = .next (v.answer resp)
      ∧ HostIndistinguishable u v := by
  obtain ⟨hcfg, hicnt, hbcnt, hdvalid, hindex, hbyte, hbit⟩ := id h
  have hnpix : npix = 1024 := rfl
  have hnbyte : nbyte = 384 := rfl
  have hnbit : nbit = 3072 := rfl
  cases i with
  | nop => exact ⟨s, t, _, rfl, rfl, h⟩
  | quant r g b => exact ⟨s, t, _, rfl, by rw [Machine.exec, execQuant, hcfg]; rfl, h⟩
  | pushi idx =>
    refine ⟨s.pushIndex idx, t.pushIndex idx, _, rfl, rfl, hcfg, by simp [hicnt], hbcnt, hdvalid, fun i hi => ?_, hbyte, hbit⟩
    rw [State.pushIndex_indexEntry, State.pushIndex_indexEntry, hicnt]
    split
    · rfl
    · refine hindex i ?_
      rw [State.pushIndex_icnt, bump_val] at hi
      omega
  | pushb byte =>
    refine ⟨s.pushByte byte, t.pushByte byte, _, rfl, rfl, hcfg, hicnt, by simp [hbcnt], hdvalid, hindex, fun n hn => ?_, hbit⟩
    rw [State.pushByte_byteEntry, State.pushByte_byteEntry, hbcnt]
    split
    · rfl
    · refine hbyte n ?_
      rw [State.pushByte_bcnt, bump_val] at hn
      omega
  | enc =>
    by_cases hc : s.icnt.val = npix
    · refine ⟨s.encoded, t.encoded, _, by simp only [Machine.exec, execEnc, hc]; rfl,
        by simp only [Machine.exec, execEnc, hicnt, hc]; rfl, hcfg, hicnt, rfl, hdvalid, hindex, fun n hn => ?_, hbit⟩
      have hn' : n < nbyte := by omega
      rw [State.encoded_byte hn', State.encoded_byte hn']
      congr 1
      funext j
      exact streamBit_congr hcfg (fun i hi => hindex i (by omega)) j
    · exact ⟨s, t, _, by simp only [Machine.exec, execEnc, ne_eq, hc]; rfl,
        by simp only [Machine.exec, execEnc, ne_eq, hicnt, hc]; rfl, h⟩
  | dec =>
    by_cases hc : s.bcnt.val = nbyte
    · refine ⟨s.decoded, t.decoded, _, by simp only [Machine.exec, execDec, hc]; rfl,
        by simp only [Machine.exec, execDec, hbcnt, hc]; rfl, hcfg, hicnt, hbcnt, rfl, hindex, hbyte, fun _ j hj => ?_⟩
      rw [State.decoded_bitEntry hj, State.decoded_bitEntry hj, extractedBit, extractedBit,
        hbyte _ (by omega)]
    · exact ⟨s, t, _, by simp only [Machine.exec, execDec, ne_eq, hc]; rfl,
        by simp only [Machine.exec, execDec, ne_eq, hbcnt, hc]; rfl, h⟩
  | recon =>
    by_cases hr : s.cfg.hasRecon = true
    · by_cases hd : s.dvalid = true
      · refine ⟨s.reconstructed, t.reconstructed, _, by simp only [Machine.exec, execRecon, hr, hd]; rfl,
          by simp only [Machine.exec, execRecon, hcfg, hdvalid, hr, hd]; rfl, hcfg, rfl, hbcnt, hdvalid, fun i hi => ?_,
          hbyte, hbit⟩
        have hi' : i < npix := by omega
        rw [State.reconstructed_indexEntry hi', State.reconstructed_indexEntry hi', hcfg, pixelCode, pixelCode,
          hbit hd _ (by omega), hbit hd _ (by omega), hbit hd _ (by omega)]
      · exact ⟨s, t, _, by simp only [Machine.exec, execRecon, hr, hd]; rfl,
          by simp only [Machine.exec, execRecon, hcfg, hdvalid, hr, hd]; rfl, h⟩
    · exact ⟨s, t, _, by simp only [Machine.exec, execRecon, hr]; rfl,
        by simp only [Machine.exec, execRecon, hcfg, hr]; rfl, h⟩
  | clr mask =>
    refine ⟨s.clear mask, t.clear mask, _, rfl, rfl, hcfg, by simp [hicnt], by simp [hbcnt], by simp [hdvalid],
      fun i hi => hindex i ?_, fun n hn => hbyte n ?_, fun hd j hj => hbit ?_ j hj⟩
    · rw [State.clear_icnt] at hi
      split at hi
      · simp at hi
      · exact hi
    · rw [State.clear_bcnt] at hn
      split at hn
      · simp at hn
      · exact hn
    · rw [State.clear_dvalid] at hd
      split at hd
      · cases hd
      · exact hd
  | rdi addr =>
    by_cases hw : addr.toNat < min s.icnt.val npix
    · exact ⟨s, t, _, by simp only [Machine.exec, execRdi, State.indexWritten, hw, decide_true, if_true]; rfl,
        by simp only [Machine.exec, execRdi, State.indexWritten, hicnt, hw, decide_true, if_true, hindex _ hw]; rfl, h⟩
    · exact ⟨s, t, _, by simp only [Machine.exec, execRdi, State.indexWritten, hw, decide_false]; rfl,
        by simp only [Machine.exec, execRdi, State.indexWritten, hicnt, hw, decide_false]; rfl, h⟩
  | rdb addr =>
    by_cases hr : byteInRange addr.toNat = true
    · by_cases hw : addr.toNat < min s.bcnt.val nbyte
      · exact ⟨s, t, _, by simp only [Machine.exec, execRdb, hr, State.byteWritten, hw, decide_true, if_true]; rfl,
          by simp only [Machine.exec, execRdb, hr, State.byteWritten, hbcnt, hw, decide_true, if_true, hbyte _ hw]; rfl, h⟩
      · exact ⟨s, t, _, by simp only [Machine.exec, execRdb, hr, State.byteWritten, hw, decide_false]; rfl,
          by simp only [Machine.exec, execRdb, hr, State.byteWritten, hbcnt, hw, decide_false]; rfl, h⟩
    · exact ⟨s, t, _, by simp only [Machine.exec, execRdb, hr]; rfl, by simp only [Machine.exec, execRdb, hr]; rfl, h⟩
  | rdd addr =>
    by_cases hr : bitInRange addr.toNat = true
    · by_cases hd : s.dvalid = true
      · exact ⟨s, t, _, by simp only [Machine.exec, execRdd, hr, hd]; rfl,
          by simp only [Machine.exec, execRdd, hr, hdvalid, hd, hbit hd _ (bitInRange_iff.mp hr)]; rfl, h⟩
      · exact ⟨s, t, _, by simp only [Machine.exec, execRdd, hr, hd]; rfl,
          by simp only [Machine.exec, execRdd, hr, hdvalid, hd]; rfl, h⟩
    · exact ⟨s, t, _, by simp only [Machine.exec, execRdd, hr]; rfl, by simp only [Machine.exec, execRdd, hr]; rfl, h⟩
  | rdstat =>
    exact ⟨s, t, _, rfl, by simp only [Machine.exec, execRdstat, statusWord, hcfg, hicnt, hbcnt, hdvalid]; rfl, h⟩

/-- A reset block and a block after CLR ALL cannot be told apart: nothing of either may be read. -/
theorem indistinguishable_afterReset_clear (s : State) : HostIndistinguishable s.afterReset (s.clear 7) where
  cfg := rfl
  icnt := rfl
  bcnt := rfl
  dvalid := rfl
  index := fun i hi => by simp at hi
  byte := fun n hn => by simp at hn
  bit := fun hd => by simp at hd

end Sys2Proof.Machine
end

