-- ==== Sys2Proof/Laws/Invariant.lean ====
section
/-! SUPPORT. Laws/Invariant.lean: each effect of a command, an answer, a reset and a change of the host's queues keep the
invariant. -/

namespace Sys2Proof.Machine

theorem lookup_fill_ne_none {w size : Nat} (f : Nat → BitVec w) {a : Nat} (h : a < size) :
    Memory.lookup (Memory.fill size f) a ≠ none := by
  simp [Memory.lookup_fill, h]

theorem lookup_write_ne_none {w : Nat} {m : Memory w} {a a' : Nat} (v : BitVec w)
    (h : a' ≠ a → Memory.lookup m a' ≠ none) : Memory.lookup (Memory.write m a v) a' ≠ none := by
  by_cases ha : a' = a
  · simp [ha, Memory.lookup_write_self]
  · rw [Memory.lookup_write_of_ne m v ha]
    exact h ha

/-- The invariant reads the block only: states that hold the same block meet it together. -/
theorem State.Inv.of_sameBlock {s t : State} (h : s.Inv) (hb : SameBlock s t) : t.Inv where
  admitted := hb.cfg ▸ h.admitted
  ibuf_wf := hb.ibuf ▸ h.ibuf_wf
  bbuf_wf := hb.bbuf ▸ h.bbuf_wf
  dbuf_wf := hb.dbuf ▸ h.dbuf_wf
  ibuf_written := hb.ibuf ▸ hb.icnt ▸ h.ibuf_written
  bbuf_written := hb.bbuf ▸ hb.bcnt ▸ h.bbuf_written
  dbuf_written := hb.dbuf ▸ hb.dvalid ▸ h.dbuf_written

theorem SameBlock.answer (s : State) (resp : Word) : SameBlock s (s.answer resp) := ⟨rfl, rfl, rfl, rfl, rfl, rfl, rfl⟩

theorem SameBlock.inputs (s : State) (q : List HostEvent) : SameBlock s { s with inputs := q } :=
  ⟨rfl, rfl, rfl, rfl, rfl, rfl, rfl⟩

theorem State.Inv.pushIndex {s : State} (h : s.Inv) (idx : PaletteIndex) : (s.pushIndex idx).Inv where
  admitted := h.admitted
  ibuf_wf := by
    rw [State.pushIndex_ibuf]
    split
    · exact Memory.wf_write _ _ h.ibuf_wf ‹_›
    · exact h.ibuf_wf
  bbuf_wf := h.bbuf_wf
  dbuf_wf := h.dbuf_wf
  ibuf_written := fun i hi => by
    rw [State.pushIndex_icnt, bump_val] at hi
    rw [State.pushIndex_ibuf]
    split
    · exact lookup_write_ne_none _ fun hne => h.ibuf_written i (by omega)
    · exact h.ibuf_written i (by omega)
  bbuf_written := h.bbuf_written
  dbuf_written := h.dbuf_written

theorem State.Inv.pushByte {s : State} (h : s.Inv) (byte : Byte) : (s.pushByte byte).Inv where
  admitted := h.admitted
  ibuf_wf := h.ibuf_wf
  bbuf_wf := by
    rw [State.pushByte_bbuf]
    split
    · exact Memory.wf_write _ _ h.bbuf_wf ‹_›
    · exact h.bbuf_wf
  dbuf_wf := h.dbuf_wf
  ibuf_written := h.ibuf_written
  bbuf_written := fun n hn => by
    rw [State.pushByte_bcnt, bump_val] at hn
    rw [State.pushByte_bbuf]
    split
    · exact lookup_write_ne_none _ fun hne => h.bbuf_written n (by omega)
    · exact h.bbuf_written n (by omega)
  dbuf_written := h.dbuf_written

theorem State.Inv.encoded {s : State} (h : s.Inv) : s.encoded.Inv where
  admitted := h.admitted
  ibuf_wf := h.ibuf_wf
  bbuf_wf := Memory.wf_fill _
  dbuf_wf := h.dbuf_wf
  ibuf_written := h.ibuf_written
  bbuf_written := fun n hn => lookup_fill_ne_none _ (by omega)
  dbuf_written := h.dbuf_written

theorem State.Inv.decoded {s : State} (h : s.Inv) : s.decoded.Inv where
  admitted := h.admitted
  ibuf_wf := h.ibuf_wf
  bbuf_wf := h.bbuf_wf
  dbuf_wf := Memory.wf_fill _
  ibuf_written := h.ibuf_written
  bbuf_written := h.bbuf_written
  dbuf_written := fun _ _ hj => lookup_fill_ne_none _ hj

theorem State.Inv.reconstructed {s : State} (h : s.Inv) : s.reconstructed.Inv where
  admitted := h.admitted
  ibuf_wf := Memory.wf_fill _
  bbuf_wf := h.bbuf_wf
  dbuf_wf := h.dbuf_wf
  ibuf_written := fun i hi => lookup_fill_ne_none _ (by omega)
  bbuf_written := h.bbuf_written
  dbuf_written := h.dbuf_written

theorem State.Inv.clear {s : State} (h : s.Inv) (mask : BitVec 3) : (s.clear mask).Inv where
  admitted := h.admitted
  ibuf_wf := h.ibuf_wf
  bbuf_wf := h.bbuf_wf
  dbuf_wf := h.dbuf_wf
  ibuf_written := fun i hi => h.ibuf_written i (by
    rw [State.clear_icnt] at hi
    split at hi
    · simp at hi
    · exact hi)
  bbuf_written := fun n hn => h.bbuf_written n (by
    rw [State.clear_bcnt] at hn
    split at hn
    · simp at hn
    · exact hn)
  dbuf_written := fun hd j hj => h.dbuf_written (by
    rw [State.clear_dvalid] at hd
    split at hd
    · cases hd
    · exact hd) j hj

/-- A block right after a reset meets the invariant whenever its configuration is admitted. -/
theorem State.Inv.afterReset {s : State} (h : s.cfg.Admitted) : s.afterReset.Inv where
  admitted := h
  ibuf_wf := rfl
  bbuf_wf := rfl
  dbuf_wf := rfl
  ibuf_written := fun i hi => by simp at hi
  bbuf_written := fun n hn => by simp at hn
  dbuf_written := fun hd => by simp at hd

/-- Every effect of a command keeps the invariant. -/
theorem State.Inv.effect {s u : State} {i : Instr} (h : s.Inv) (hu : Effect s i u) : u.Inv := by
  cases hu with
  | none => exact h
  | pushi idx => exact h.pushIndex idx
  | pushb byte => exact h.pushByte byte
  | enc => exact h.encoded
  | dec => exact h.decoded
  | recon => exact h.reconstructed
  | clr mask => exact h.clear mask

end Sys2Proof.Machine
end

