-- ==== Sys2Proof/Laws/Quantizer.lean ====
section
/-! SUPPORT. Laws/Quantizer.lean: what QUANT's scan finds, and the distance by channels. -/

namespace Sys2Proof.Machine

/-- `best` is nearest among the palette indices of `seen`, and the first such in index order. -/
def FirstNearest (d : PaletteIndex → Int) (seen : List PaletteIndex) (best : PaletteIndex) : Prop :=
  best ∈ seen ∧ (∀ q ∈ seen, d best ≤ d q) ∧ ∀ q ∈ seen, q < best → d best < d q

/-- A scan that replaces its best only by a strictly nearer index keeps the first nearest of what it has seen. -/
theorem firstNearest_foldl (d : PaletteIndex → Int) (ps seen : List PaletteIndex) (best : PaletteIndex)
    (hb : FirstNearest d seen best) (hlt : ∀ q ∈ seen, ∀ p ∈ ps, q < p) (hs : ps.Pairwise (· < ·)) :
    FirstNearest d (seen ++ ps) (ps.foldl (fun b p => if d p < d b then p else b) best) := by
  induction ps generalizing seen best with
  | nil => simpa using hb
  | cons p ps ih =>
    obtain ⟨hmem, hmin, hfirst⟩ := hb
    rw [List.pairwise_cons] at hs
    have hstep : FirstNearest d (seen ++ [p]) (if d p < d best then p else best) := by
      split
      · refine ⟨by simp, fun q hq => ?_, fun q hq hqp => ?_⟩
        · rcases List.mem_append.mp hq with hq | hq
          · have := hmin q hq
            omega
          · simp only [List.mem_singleton] at hq
            rw [hq]
        · rcases List.mem_append.mp hq with hq | hq
          · have := hmin q hq
            omega
          · simp only [List.mem_singleton] at hq
            exact absurd (hq ▸ hqp) (BitVec.lt_irrefl _)
      · refine ⟨by simp [hmem], fun q hq => ?_, fun q hq hqb => ?_⟩
        · rcases List.mem_append.mp hq with hq | hq
          · exact hmin q hq
          · simp only [List.mem_singleton] at hq
            rw [hq]
            omega
        · rcases List.mem_append.mp hq with hq | hq
          · exact hfirst q hq hqb
          · simp only [List.mem_singleton] at hq
            subst hq
            exact absurd (BitVec.lt_trans hqb (hlt best hmem q (by simp))) (BitVec.lt_irrefl _)
    have := ih (seen ++ [p]) _ hstep
      (fun q hq p' hp' => by
        rcases List.mem_append.mp hq with hq | hq
        · exact hlt q hq p' (by simp [hp'])
        · simp only [List.mem_singleton] at hq
          rw [hq]
          exact hs.1 p' hp')
      hs.2
    simpa using this

/-- The scan of R104 finds the first nearest of the 8 palette indices. -/
theorem nearest_firstNearest (c : Config) (r g b : Byte) :
    FirstNearest (distance c r g b) [0, 1, 2, 3, 4, 5, 6, 7] (nearest c r g b) :=
  firstNearest_foldl (distance c r g b) [1, 2, 3, 4, 5, 6, 7] [0] 0
    ⟨by simp, by simp, by simp⟩ (by decide) (by decide)

/-- The first nearest index is the only one with its property. -/
theorem nearest_eq_of_first {c : Config} {r g b : Byte} {p : PaletteIndex}
    (h : ∀ q, q ≠ p → distance c r g b p < distance c r g b q) : nearest c r g b = p := by
  by_contra hne
  have := h _ hne
  have := (nearest_firstNearest c r g b).2.1 p (mem_paletteIndices p)
  omega

theorem channelDistance_nonneg (mode : RefMode) (c : Byte) (ref : BitVec 4) : 0 ≤ channelDistance mode c ref :=
  mul_self_nonneg _

theorem scale_le (mode : RefMode) (n : BitVec 4) : scale mode n ≤ 255 := by
  have := n.isLt
  cases mode <;> simp only [scale] <;> omega

theorem channelDistance_le (mode : RefMode) (c : Byte) (ref : BitVec 4) : channelDistance mode c ref ≤ 65025 := by
  have hs := scale_le mode ref
  have hc := c.isLt
  unfold channelDistance
  nlinarith

/-- A channel on its reference has distance 0, and only there. -/
theorem channelDistance_eq_zero {mode : RefMode} {c : Byte} {ref : BitVec 4} :
    channelDistance mode c ref = 0 ↔ c.toNat = scale mode ref := by
  unfold channelDistance
  rw [mul_self_eq_zero]
  omega

theorem scale_injective {mode : RefMode} {m n : BitVec 4} (h : scale mode m = scale mode n) : m = n := by
  apply BitVec.eq_of_toNat_eq
  cases mode <;> simp only [scale] at h <;> omega

end Sys2Proof.Machine
end

