-- ==== Sys2Proof/Tests/Slice0.lean ====
section
/-! SUPPORT. Tests/Slice0.lean: the model's own tests. Expected values are the spec's: 30_encoding.md R63, R68, R71 and the
vectors of 95_test_vectors.md, or worked by hand from the rule named. The witnesses show that each statement's hypotheses
are met together. -/

namespace Sys2Proof.Tests

open Sys2Proof.Machine

/-- The last response of an outcome. -/
def lastResponse (r : Result) : Option Word := (nextOf? r).bind (·.responses.getLast?)

/-- A reset state with another configuration's scale, table of bit-strings and RECON. -/
def stateWith (mode : RefMode) (recon : Bool) : State :=
  { State.reset with cfg := { Config.default with refMode := mode, hasRecon := recon, paletteBits := Config.illustrativeBits } }

/-- A state that holds 1024 indices, all `p`. -/
def framed (p : PaletteIndex) : State := { State.reset with ibuf := Memory.fill 1024 fun _ => p, icnt := 1024 }

/-- A state with ICNT = 1025, BCNT = 384 and DVALID = 1, as 95_test_vectors.md 2.6 starts from. -/
def busy : State := { State.reset with icnt := 1025, bcnt := 384, dvalid := true }

/-! ### WellFormed: an ill-formed term for each check -/

theorem test_default_admitted : Config.default.Admitted := by decide

theorem test_illustrative_recon_admitted : (stateWith .replicated true).cfg.Admitted := by decide

/-- R9 (a): two equal reference values. -/
theorem test_equal_rgb_refused :
    ¬ Config.Admitted { Config.default with paletteRgb := Config.defaultPaletteRgb.set 2 ⟨0x0, 0x0, 0x0⟩ } := by decide

/-- R9 (b): a red that is not (0xF, 0x0, 0x0). -/
theorem test_other_red_refused :
    ¬ Config.Admitted { Config.default with paletteRgb := Config.defaultPaletteRgb.set 1 ⟨0xE, 0x0, 0x0⟩ } := by decide

/-- R9 (c): a black that is not "000". -/
theorem test_other_black_refused :
    ¬ Config.Admitted { Config.default with paletteBits := Config.illustrativeBits.set 0 0b001 } := by decide

/-- R9 (c): a white that is not "111". -/
theorem test_other_white_refused :
    ¬ Config.Admitted { Config.default with paletteBits := Config.illustrativeBits.set 7 0b110 } := by decide

/-- R9 (d): equal bit-strings with RECON; without RECON they are admitted. -/
theorem test_equal_bits_refused_with_recon :
    ¬ Config.Admitted { Config.default with hasRecon := true, paletteBits := Config.illustrativeBits.set 2 0b100 }
      ∧ Config.Admitted { Config.default with paletteBits := Config.illustrativeBits.set 2 0b100 } := by decide

/-- R64: RECON is no command of a configuration without it. -/
theorem test_recon_not_wf_without_recon : Instr.wf Config.default .recon = false := by decide

/-- R68: the assembler refuses an operand that does not fit, one for each operand form. -/
theorem test_assembler_refuses :
    (AsmCommand.quant 256 0 0).assemble = none ∧ (AsmCommand.quant24 0x1000000).assemble = none
      ∧ (AsmCommand.pushi (.number 8)).assemble = none ∧ (AsmCommand.pushb 256).assemble = none
      ∧ (AsmCommand.clr (.number 8)).assemble = none ∧ (AsmCommand.rdi 1024).assemble = none
      ∧ (AsmCommand.rdb 512).assemble = none ∧ (AsmCommand.rdd 4096).assemble = none
      ∧ (AsmLine.rep 0 .nop).assemble = none ∧ (AsmLine.loadi []).assemble = none
      ∧ (AsmLine.loadb []).assemble = none := by decide

/-! ### Decode: each command's word bit by bit from R61, R63 -/

theorem test_decode_nop : decode 0b00000000000000000000000000000000 = some .nop := by decide
theorem test_decode_quant : decode 0b00010000000000010000001000000011 = some (.quant 1 2 3) := by decide
theorem test_decode_pushi : decode 0b00100000000000000000000000000110 = some (.pushi 6) := by decide
theorem test_decode_pushb : decode 0b00110000000000000000000010100101 = some (.pushb 0xA5) := by decide
theorem test_decode_enc : decode 0b01000000000000000000000000000000 = some .enc := by decide
theorem test_decode_dec : decode 0b01010000000000000000000000000000 = some .dec := by decide
theorem test_decode_recon : decode 0b01100000000000000000000000000000 = some .recon := by decide
theorem test_decode_clr : decode 0b01110000000000000000000000000100 = some (.clr 4) := by decide
theorem test_decode_rdi : decode 0b10000000000000000000001111111110 = some (.rdi 1022) := by decide
theorem test_decode_rdb : decode 0b10010000000000000000000101111111 = some (.rdb 383) := by decide
theorem test_decode_rdd : decode 0b10100000000000000000101111111110 = some (.rdd 3070) := by decide
theorem test_decode_rdstat : decode 0b10110000000000000000000000000000 = some .rdstat := by decide

/-- 95_test_vectors.md: the words of section 2 that are ILLEGAL for a reserved bit. -/
theorem test_decode_reserved_bits :
    ([0x00000001, 0x11000000, 0x1F123456, 0x20000008, 0x30000100, 0x40000001, 0x50000100, 0x60000001, 0x70000008,
      0x80000400].all fun w => decode w == none) = true
    ∧ ([0x90000200, 0xA0001000, 0xB0000001].all fun w => decode w == none) = true := by decide

/-- 95_test_vectors.md 2.6: the reserved opcodes are ILLEGAL. -/
theorem test_decode_reserved_op :
    decode 0xC0000000 = none ∧ decode 0xD0000000 = none ∧ decode 0xE0000000 = none ∧ decode 0xF0000000 = none
      ∧ decode 0xFFFFFFFF = none := by decide

/-- The table's numbers give the table's commands; a word longer than 32 bits is none. -/
theorem test_decodeTableWord :
    decodeTableWord 32 0x60000000 = some .recon ∧ decodeTableWord 32 0xA0000BFF = some (.rdd 3071)
      ∧ decodeTableWord 40 0 = none := by decide

/-! ### Commands -/

/-- 2.1: the NIBBLE column. -/
theorem test_quant_nibble :
    ([(255, 0, 255, 2), (15, 0, 0, 1), (7, 7, 7, 0), (8, 8, 8, 7), (7, 8, 7, 4), (100, 100, 100, 7), (16, 200, 3, 3)].all
      fun (r, g, b, p) => nearest Config.default r g b == p) = true := by decide

/-- 2.1: the REPLICATED column, and the tie-break under configuration H. -/
theorem test_quant_replicated_and_tie :
    (nearest (stateWith .replicated false).cfg 15 0 0 = 0 ∧ nearest (stateWith .replicated false).cfg 100 100 100 = 0
      ∧ nearest (stateWith .replicated false).cfg 127 0 0 = 0 ∧ nearest (stateWith .replicated false).cfg 128 0 0 = 1)
    ∧ nearest { Config.default with paletteRgb := Config.defaultPaletteRgb.set 2 ⟨0x2, 0x0, 0x0⟩ } 1 0 0 = 0
    ∧ nearest { Config.default with paletteRgb := Config.defaultPaletteRgb.set 2 ⟨0x2, 0x0, 0x0⟩ } 2 0 0 = 2 := by
  decide

/-- 2.2: pixels 0..7 = indices 0..7 under ILLUS_BITS pack to 0x71, 0x1D, 0x27. -/
theorem test_enc_pattern :
    let s := { stateWith .nibble false with ibuf := [(0, 0), (1, 1), (2, 2), (3, 3), (4, 4), (5, 5), (6, 6), (7, 7)] }
    packByte (streamBit s) 0 = 0x71 ∧ packByte (streamBit s) 128 = 0x1D ∧ packByte (streamBit s) 256 = 0x27 := by decide

/-- 2.2: ICNT = 1023 and 1025 raise LENGTH. -/
theorem test_enc_length :
    lastResponse (exec .enc { State.reset with icnt := 1023 }) = some 0x20000000
      ∧ lastResponse (exec .enc { State.reset with icnt := 1025 }) = some 0x20000000 := by decide

/-- 2.3: byte 0xA5 gives 1,0,1,0,0,1,0,1 and the last bit of byte 383 is bit 3071. -/
theorem test_dec_bits :
    let s := { State.reset with bbuf := [(0, 0xA5), (383, 0x01)], bcnt := 384 }
    [0, 1, 2, 3, 4, 5, 6, 7, 3070, 3071].map (extractedBit s) = [1, 0, 1, 0, 0, 1, 0, 1, 0, 1] := by decide

/-- 2.3: BCNT = 385 with DVALID = 1 raises LENGTH and keeps DVALID. -/
theorem test_dec_length :
    (nextOf? (exec .dec { busy with bcnt := 385 })).map (fun t => (t.dvalid, t.responses)) = some (true, [0x20000000]) := by
  decide

/-- 2.4: bits 5, 1029, 2053 = 1, 0, 1 are magenta under ILLUS_BITS. -/
theorem test_recon_pixel :
    let s := { stateWith .nibble true with dbuf := [(5, 1), (1029, 0), (2053, 1)], dvalid := true }
    indexOfCode s.cfg (pixelCode s 5) = 2 := by decide

/-- 2.4: absent RECON is ILLEGAL, present without DEC output NODATA. -/
theorem test_recon_errors :
    lastResponse (exec .recon { State.reset with dvalid := true }) = some 0x10000000
      ∧ lastResponse (exec .recon (stateWith .nibble true)) = some 0x40000000 := by decide

/-- 2.5: the push at 1023 writes and counts, the push at 1024 only counts. -/
theorem test_pushi_boundary :
    (nextOf? (exec (.pushi 7) { State.reset with icnt := 1023 })).map (fun t => (t.ibuf, t.icnt)) = some ([(1023, 7)], 1024)
      ∧ (nextOf? (exec (.pushi 7) { State.reset with icnt := 1024 })).map (fun t => (t.ibuf, t.icnt)) = some ([], 1025) := by
  decide

/-- 2.5: nothing changes at 2047. -/
theorem test_pushi_saturates : (nextOf? (exec (.pushi 3) { State.reset with icnt := 2047 })).map (·.icnt) = some 2047 := by
  decide

/-- 2.5: the push at 383 writes and counts, the push at 384 only counts. -/
theorem test_pushb_boundary :
    (nextOf? (exec (.pushb 0xFF) { State.reset with bcnt := 383 })).map (fun t => (t.bbuf, t.bcnt)) = some ([(383, 0xFF)], 384)
      ∧ (nextOf? (exec (.pushb 0x12) { State.reset with bcnt := 384 })).map (fun t => (t.bbuf, t.bcnt)) = some ([], 385) := by
  decide

/-- A push over a cleared entry replaces it and keeps the buffer's form (R164, R162). -/
theorem test_pushb_overwrites :
    (nextOf? (exec (.pushb 2) { State.reset with bbuf := [(0, 1), (2, 9)] })).map (·.bbuf) = some [(0, 2), (2, 9)] := by decide

/-- 2.6: CLR I, CLR B, CLR D, CLR B|D. -/
theorem test_clr_masks :
    ([(1, (0, 384, true)), (2, (1025, 0, true)), (4, (1025, 384, false)), (6, (1025, 0, false))].all fun (m, after) =>
      (nextOf? (exec (.clr m) busy)).map (fun t => (t.icnt, t.bcnt, t.dvalid)) == some after) = true := by decide

/-- 2.7: RDI. -/
theorem test_rdi :
    lastResponse (exec (.rdi 0) State.reset) = some 0x40000000
      ∧ lastResponse (exec (.rdi 0) { State.reset with icnt := 1, ibuf := [(0, 1)] }) = some 0x00000001
      ∧ lastResponse (exec (.rdi 1) { State.reset with icnt := 1, ibuf := [(0, 1)] }) = some 0x40000000 := by decide

/-- 2.7: RDB. -/
theorem test_rdb :
    lastResponse (exec (.rdb 400) State.reset) = some 0x30000000
      ∧ lastResponse (exec (.rdb 0) State.reset) = some 0x40000000
      ∧ lastResponse (exec (.rdb 383) { busy with bbuf := [(383, 0x5A)] }) = some 0x0000005A := by decide

/-- 2.7: RDD. -/
theorem test_rdd :
    lastResponse (exec (.rdd 3072) State.reset) = some 0x30000000
      ∧ lastResponse (exec (.rdd 0) State.reset) = some 0x40000000
      ∧ lastResponse (exec (.rdd 3071) { busy with dbuf := [(3071, 1)] }) = some 0x00000001 := by decide

/-- 2.7: RDSTAT after reset under each configuration, and the word of program P2. -/
theorem test_rdstat :
    lastResponse (exec .rdstat State.reset) = some 0x00000000
      ∧ lastResponse (exec .rdstat (stateWith .nibble true)) = some 0x00800000
      ∧ lastResponse (exec .rdstat (stateWith .replicated true)) = some 0x01800000
      ∧ lastResponse (exec .rdstat { State.reset with bcnt := 385, dvalid := true }) = some 0x004C0800 := by decide

/-! ### Steps -/

/-- Each row's first word runs as the first command after reset and is answered (R220). -/
theorem test_first_command_after_reset :
    ([(0x00000000, 0x00000000), (0x10FF0000, 0x00000001), (0x20000001, 0x00000000), (0x300000A5, 0x00000000),
      (0x40000000, 0x20000000), (0x50000000, 0x20000000), (0x60000000, 0x10000000), (0x70000007, 0x00000000),
      (0x80000000, 0x40000000), (0x90000180, 0x30000000), (0xA0000000, 0x40000000), (0xB0000000, 0x00000000),
      (0xC0000000, 0x10000000)].all fun (w, resp) =>
      lastResponse (step (State.reset.withFetchWord 32 w)) == some resp) = true := by decide

/-- A reset event answers nothing, keeps the later events and forgets the counts (R221). -/
theorem test_reset_event :
    (nextOf? (step { busy with inputs := [.reset, .command 0xB0000000] })).map
        (fun t => (t.icnt, t.bcnt, t.dvalid, t.inputs, t.responses))
      = some (0, 0, false, [.command 0xB0000000], []) := by decide

/-- An idle block stays as it is (R212). -/
theorem test_idle : nextOf? (step State.reset) = some State.reset := rfl

/-! ### Assembly -/

/-- R68, R71: text to words. -/
theorem test_assemble_text :
    assembleText "QUANT 255, 0, 0".toList = some [0x10FF0000] ∧ assembleText "QUANT 0x808080".toList = some [0x10808080]
      ∧ assembleText "PUSHI white".toList = some [0x20000007] ∧ assembleText "PUSHB 0xA5".toList = some [0x300000A5]
      ∧ assembleText "CLR B|D".toList = some [0x70000006] ∧ assembleText "CLR ALL".toList = some [0x70000007]
      ∧ assembleText "RDI 1023".toList = some [0x800003FF] ∧ assembleText "RDD 3071".toList = some [0xA0000BFF] := by decide

/-- R70: pseudo-instructions. -/
theorem test_assemble_pseudo :
    assembleText "REP 2, PUSHI 3".toList = some [0x20000003, 0x20000003]
      ∧ assembleText "LOADI red, 2".toList = some [0x20000001, 0x20000002]
      ∧ assembleText "LOADB 1, 0xff".toList = some [0x30000001, 0x300000FF]
      ∧ assembleText "RDI 1024".toList = none ∧ assembleText "NOP 1".toList = none := by decide

/-! ### Witnesses -/

theorem framed_index (p : PaletteIndex) {i : Nat} (h : i < 1024) : (framed p).index i = p := Memory.entry_fill _ h

theorem witness_EncodeOfDecodedIsTheWord : decode 0x90000180 = some (.rdb 384) := by decide

theorem witness_AtMostOneRowMatches :
    ⟨.rdb, 0xFFFFFE00, 0x90000000⟩ ∈ opcodeTable ∧ OpcodeRow.matches ⟨.rdb, 0xFFFFFE00, 0x90000000⟩ 0x900001FF = true := by
  decide

/-- One refused word for each clause, at the least reserved value, and the greatest admitted value beside it. -/
theorem witness_IllegalWordsAnswerIllegal :
    ([0xC0000000, 0x00000001, 0x40000001, 0x50000001, 0x60000001, 0xB0000001, 0x11000000, 0x20000008, 0x70000008,
      0x30000100, 0x80000400, 0x90000200, 0xA0001000, 0x60000000].all fun w => decodeFor Config.default w == none) = true
    ∧ ([0x00000000, 0x10FFFFFF, 0x20000007, 0x300000FF, 0x40000000, 0x50000000, 0x70000007, 0x800003FF, 0x900001FF,
      0xA0000FFF, 0xB0000000].all fun w => (decodeFor Config.default w).isSome) = true
    ∧ decodeFor (stateWith .nibble true).cfg 0x60000000 = some .recon := by decide

theorem witness_EveryWordGetsOneResponse :
    (0x40000000 : Word).extractLsb' 28 4 ∈ [0x0#4, 0x2#4, 0x3#4, 0x4#4, 0x5#4, 0x6#4, 0x7#4]
      ∧ (0x20000000 : Word).extractLsb' 28 4 ≠ 0 := by decide

/-- White's own scaled reference, under both scales; and two states with equal tables. -/
theorem witness_QuantIsClosedSelfConsistentDeterministic :
    (stateWith .replicated true).cfg.Admitted ∧ scale .replicated ((stateWith .replicated true).cfg.rgb 7).r = 255
      ∧ Config.default.Admitted ∧ Config.default.refMode = .nibble ∧ scale .nibble (Config.default.rgb 7).r = 15
      ∧ busy.cfg = State.reset.cfg :=
  ⟨by decide, by decide, by decide, rfl, by decide, rfl⟩

/-- Words of the two ends of the formats: NOP's, and RDD's with every address bit 1. -/
theorem witness_EachFormatGivesItsOperands :
    (0x00000000 : Word).extractLsb' 28 4 = 0x0 ∧ (0x00000000 : Word).extractLsb' 0 28 = 0
      ∧ (0xA0000FFF : Word).extractLsb' 28 4 = 0xA ∧ (0xA0000FFF : Word).extractLsb' 12 16 = 0
      ∧ (0xA0001000 : Word).extractLsb' 12 16 ≠ 0 ∧ 0xC ≤ ((0xC0000000 : Word).extractLsb' 28 4).toNat := by decide

/-- QUANT's opcode, with and without a reserved bit. -/
theorem witness_QuantAnswersFirstNearestIndex :
    (0x10FFFFFF : Word).extractLsb' 28 4 = 0x1 ∧ (0x11000000 : Word).extractLsb' 28 4 = 0x1
      ∧ (0x11000000 : Word).extractLsb' 24 4 ≠ 0 := by decide

theorem witness_QuantClosedFormUnderDefaultPalette :
    State.reset.cfg.paletteRgb = Config.defaultPaletteRgb
      ∧ (stateWith .replicated false).cfg.paletteRgb = Config.defaultPaletteRgb ∧ (1 : PaletteIndex) ≠ closedFormIndex .nibble 7 7 7 :=
  ⟨rfl, rfl, by decide⟩

/-- Every count clause at its edge, and ENC's opcode. -/
theorem witness_EncPacksThePlanes :
    (framed 7).icnt.val = 1024 ∧ ({ State.reset with icnt := 1023 } : State).icnt.val ≠ 1024
      ∧ ({ State.reset with icnt := 1025 } : State).icnt.val ≠ 1024 ∧ (0x40000001 : Word).extractLsb' 28 4 = 0x4 :=
  ⟨rfl, by decide, by decide, by decide⟩

theorem witness_EncPlacesEachPixel : ∃ t, (framed 7).icnt.val = 1024 ∧ exec .enc (framed 7) = .next t := ⟨_, rfl, rfl⟩

theorem witness_EncBlackWhiteAndDeterminism :
    (framed 0).cfg.Admitted ∧ (framed 7).cfg.Admitted ∧ (∃ t, exec .enc (framed 0) = .next t) ∧ (∃ t, exec .enc (framed 7) = .next t)
      ∧ (∀ i < 1024, (framed 0).index i = Colour.black.index) ∧ (∀ i < 1024, (framed 7).index i = Colour.white.index)
      ∧ (framed 0).cfg.paletteBits = (framed 0).cfg.paletteBits :=
  ⟨by decide, by decide, ⟨_, rfl⟩, ⟨_, rfl⟩, fun _ h => framed_index 0 h, fun _ h => framed_index 7 h, rfl⟩

/-- Every count clause at its edge, and DEC's opcode. -/
theorem witness_DecExtractsTheBits :
    busy.bcnt.val = 384 ∧ ({ State.reset with bcnt := 383 } : State).bcnt.val ≠ 384
      ∧ ({ State.reset with bcnt := 385 } : State).bcnt.val ≠ 384 ∧ (0x50000001 : Word).extractLsb' 28 4 = 0x5 := by decide

/-- ENC then DEC on its own next state; and DEC on two states of equal bytes. -/
theorem witness_DecRoundTrips :
    ∃ t v w, (framed 7).icnt.val = 1024 ∧ exec .enc (framed 7) = .next t ∧ exec .dec t = .next v
      ∧ busy.bcnt.val = 384 ∧ exec .dec busy = .next w :=
  ⟨_, _, _, rfl, rfl, rfl, rfl, rfl⟩

theorem witness_ReconRebuildsTheIndices :
    let s := { stateWith .nibble true with dvalid := true }
    s.cfg.Admitted ∧ s.cfg.hasRecon = true ∧ s.dvalid = true
      ∧ State.reset.cfg.hasRecon = false ∧ (stateWith .nibble true).cfg.hasRecon = true
      ∧ (stateWith .nibble true).dvalid = false ∧ (0x60000001 : Word).extractLsb' 28 4 = 0x6 :=
  ⟨by decide, rfl, rfl, rfl, rfl, rfl, by decide⟩

/-- Each of the three commands on the next state of the one before it. -/
theorem witness_EncDecReconIsTheIdentity :
    let s := { stateWith .nibble true with ibuf := (framed 5).ibuf, icnt := 1024 }
    s.cfg.Admitted ∧ s.cfg.hasRecon = true ∧ s.icnt.val = 1024
      ∧ ∃ t v z, exec .enc s = .next t ∧ exec .dec t = .next v ∧ exec .recon v = .next z :=
  ⟨by decide, rfl, rfl, ⟨_, _, _, rfl, rfl, rfl⟩⟩

theorem witness_NopDoesNothing :
    (0x00000000 : Word).extractLsb' 28 4 = 0 ∧ (0x00000001 : Word).extractLsb' 28 4 = 0
      ∧ (0x0FFFFFFF : Word).extractLsb' 28 4 = 0 := by decide

/-- Each mask bit set and clear; addresses at the top of the two spaces. -/
theorem witness_ClrClearsTheSelected :
    (7 : BitVec 3).getLsbD 0 = true ∧ (7 : BitVec 3).getLsbD 1 = true ∧ (7 : BitVec 3).getLsbD 2 = true
      ∧ (383 : BitVec 9).toNat < 384 ∧ (3071 : BitVec 12).toNat < 3072 ∧ (0x70000008 : Word).extractLsb' 28 4 = 0x7 := by
  decide

theorem witness_RdstatReadsTheStatusWord :
    (0xB0000000 : Word).extractLsb' 28 4 = 0xB ∧ (0xB0000001 : Word).extractLsb' 28 4 = 0xB := by decide

/-- The clauses of PUSHI: room at 0 and 1023, none at 1024 and 2047. -/
theorem witness_PushiAppendsOneIndex :
    ({ State.reset with icnt := 1023 } : State).icnt.val < 1024 ∧ ¬ ({ State.reset with icnt := 1024 } : State).icnt.val < 1024
      ∧ State.reset.icnt.val < 1024 ∧ ¬ (State.reset.icnt.val < 1024 ∧ 1 = State.reset.icnt.val)
      ∧ (0x20000008 : Word).extractLsb' 28 4 = 0x2 := by decide

theorem witness_PushbAppendsOneByte :
    ({ State.reset with bcnt := 383 } : State).bcnt.val < 384 ∧ ¬ ({ State.reset with bcnt := 384 } : State).bcnt.val < 384
      ∧ State.reset.bcnt.val < 384 ∧ ¬ (State.reset.bcnt.val < 384 ∧ 1 = State.reset.bcnt.val)
      ∧ (0x30000100 : Word).extractLsb' 28 4 = 0x3 := by decide

theorem witness_PushesFillTheIndexBuffer : State.reset.icnt.val = 0 ∧ 0 < ([5] : List PaletteIndex).length := by decide

theorem witness_PushesFillTheByteBuffer : State.reset.bcnt.val = 0 ∧ 0 < ([0xA5] : List Byte).length := by decide

theorem witness_RdiReadsOneIndex :
    (1023 : BitVec 10).toNat < min busy.icnt.val 1024 ∧ min State.reset.icnt.val 1024 ≤ (0 : BitVec 10).toNat
      ∧ min ({ State.reset with icnt := 1023 } : State).icnt.val 1024 ≤ (1023 : BitVec 10).toNat
      ∧ (0x80000400 : Word).extractLsb' 28 4 = 0x8 := by decide

theorem witness_RdbReadsOneByte :
    (383 : BitVec 9).toNat < min busy.bcnt.val 384 ∧ 384 ≤ (384 : BitVec 9).toNat ∧ 384 ≤ (511 : BitVec 9).toNat
      ∧ (383 : BitVec 9).toNat < 384 ∧ min ({ State.reset with bcnt := 383 } : State).bcnt.val 384 ≤ (383 : BitVec 9).toNat
      ∧ (0x90000200 : Word).extractLsb' 28 4 = 0x9 := by
  decide

theorem witness_RddReadsOneBit :
    (3071 : BitVec 12).toNat < 3072 ∧ busy.dvalid = true ∧ 3072 ≤ (3072 : BitVec 12).toNat ∧ 3072 ≤ (4095 : BitVec 12).toNat
      ∧ State.reset.dvalid = false
      ∧ (0xA0001000 : Word).extractLsb' 28 4 = 0xA := by decide

theorem witness_PushPixelWritesBlackOutside : ({ State.reset with icnt := 1023 } : State).icnt.val < 1024 := by decide

theorem witness_PixelOrderIsColumnMajor : 1023 < 1024 ∧ 63 < 64 ∧ 15 < 16 := by decide

/-- The grid's two ends, one inside and one outside an image of one pixel, and the last plane. -/
theorem witness_ImageProcedureYieldsThePackedFrame :
    let img : Image := ⟨1, 1, fun _ _ => ⟨255, 0, 0⟩⟩
    (0 < 64 ∧ 0 < 16 ∧ ¬ (img.width ≤ 0 ∨ img.height ≤ 0)) ∧ (63 < 64 ∧ 15 < 16 ∧ (img.width ≤ 63 ∨ img.height ≤ 15))
      ∧ 0 < 3 ∧ 2 < 3 := by decide

theorem witness_BytesProcedureYieldsTheBits : (List.replicate 384 (0xA5 : Byte)).length = 384 :=
  List.length_replicate

/-- A command of each error, at the edge of each cause, and one that answers OK. -/
theorem witness_EachErrorHasItsCommands :
    ([(.recon, 0x10000000), (.enc, 0x20000000), (.dec, 0x20000000), (.rdb 384, 0x30000000), (.rdd 3072, 0x30000000),
      (.rdi 0, 0x40000000), (.rdb 383, 0x40000000), (.rdd 3071, 0x40000000), (.nop, 0x00000000)].all
      fun ((i, resp) : Instr × Word) => lastResponse (performWord (encode i) State.reset) == some resp) = true
    ∧ lastResponse (performWord 0x60000000 (stateWith .nibble true)) = some 0x40000000 := by decide

theorem witness_ErrorsAreAtomicAndNotSticky :
    ∃ t, performWord 0x40000000 State.reset = .next t ∧ t.responses = State.reset.responses ++ [0x20000000]
      ∧ (0x20000000 : Word).extractLsb' 28 4 ≠ 0 := ⟨_, rfl, by decide, by decide⟩

theorem witness_ErrorPriority :
    decodeFor State.reset.cfg 0x60000000 = none ∧ 384 ≤ (400 : BitVec 9).toNat ∧ 3072 ≤ (3072 : BitVec 12).toNat := by decide

theorem witness_StepKeepsTheConfiguration :
    ∃ t, step { busy with inputs := [.command 0x70000007] } = .next t := ⟨_, rfl⟩

theorem witness_EachElementHasItsWriters :
    ∃ t, exec (.pushi 5) State.reset = .next t ∧ t.ibuf ≠ State.reset.ibuf ∧ t.icnt ≠ State.reset.icnt := ⟨_, rfl, by decide, by decide⟩

theorem witness_EachElementHasItsWriters_bytes :
    ∃ t, exec (.pushb 5) State.reset = .next t ∧ t.bbuf ≠ State.reset.bbuf ∧ t.bcnt ≠ State.reset.bcnt := ⟨_, rfl, by decide, by decide⟩

theorem witness_EachElementHasItsWriters_bits :
    ∃ t, exec .dec { State.reset with bcnt := 384 } = .next t ∧ t.dvalid ≠ State.reset.dvalid ∧ t.dbuf ≠ State.reset.dbuf := by
  refine ⟨_, rfl, by decide, fun h => ?_⟩
  exact lookup_fill_ne_none (size := nbit) (extractedBit { State.reset with bcnt := 384 }) (a := 0) (by decide)
    (congrArg (Memory.lookup · 0) h)

theorem witness_ReadsAreIdempotent :
    SameBlock busy { busy with responses := [0], inputs := [.reset] }
      ∧ ({ State.reset with icnt := 2046 } : State).icnt.val < 2047
      ∧ ({ State.reset with bcnt := 2046 } : State).bcnt.val < 2047 :=
  ⟨⟨rfl, rfl, rfl, rfl, rfl, rfl, rfl⟩, by decide, by decide⟩

theorem witness_StepRunsTheOldestCommand :
    busy.cfg.Admitted ∧ ({ busy with inputs := [.command 0x70000007, .reset] } : State).inputs = .command 0x70000007 :: [.reset]
      ∧ decode 0x70000007 = some (.clr 7) := by decide

theorem witness_StepAnswersIllegalOtherwise :
    busy.cfg.Admitted ∧ ({ busy with inputs := [.command 0xFFFFFFFF] } : State).inputs = .command 0xFFFFFFFF :: []
      ∧ decode 0xFFFFFFFF = none := by decide

theorem witness_IdleBlockKeepsItsState : busy.cfg.Admitted ∧ busy.inputs = [] := by decide

theorem witness_PlacedWordRunsNext : State.reset.cfg.Admitted ∧ decodeTableWord 32 0x60000000 = some .recon := by decide

theorem witness_ResetStateIsAsStated :
    busy.cfg.Admitted ∧ ({ busy with inputs := [.reset] } : State).inputs = .reset :: [] ∧ SameBlock (State.resetWith busy.cfg) State.reset :=
  ⟨by decide, rfl, ⟨rfl, rfl, rfl, rfl, rfl, rfl, rfl⟩⟩

theorem witness_ResetAndClearAllAreIndistinguishable : busy.cfg.Admitted := by decide

theorem witness_ResetMeetsTheInvariant : (stateWith .replicated true).cfg.Admitted := by decide

/-- A state with an index written and a command pending that meets the invariant and steps. -/
theorem witness_StepKeepsTheInvariant :
    let s := { State.reset with ibuf := [(0, 5)], icnt := 1, inputs := [.command 0x20000003] }
    s.Inv ∧ ∃ t, step s = .next t :=
  ⟨⟨by decide, by decide, rfl, rfl, fun i hi => by
      have : i = 0 := by simp at hi; omega
      subst this; decide, fun n hn => absurd (Nat.lt_of_lt_of_le hn (Nat.min_le_left _ _)) (Nat.not_lt_zero n),
      fun h => by cases h⟩, ⟨_, rfl⟩⟩

/-- A reachable state in which an index is written. -/
theorem witness_ReachableReadsMeetWrittenEntries : ∃ s, Reachable s ∧ s.indexWritten 0 = true := by
  refine ⟨_, .steps (.hostAdds (.command 0x20000003) (.reset (c := Config.default) (by decide))) rfl, by decide⟩

theorem witness_PseudoInstructionsExpand :
    (AsmCommand.pushi (.colour .red)).assemble = some (.pushi 1) ∧ (IndexOperand.colour .white).value = some 7
      ∧ [IndexOperand.number 3, .colour .cyan].map IndexOperand.value = ([3, 5] : List PaletteIndex).map some := by decide

/-- A block after reset and one after CLR ALL, whose contents differ, with a word and a reset pending. -/
theorem witness_StepKeepsIndistinguishability :
    let s := { State.reset with ibuf := [(0, 5)], icnt := 1, inputs := [.command 0x80000000, .reset] }
    s.cfg.Admitted ∧ HostIndistinguishable s.afterReset (s.clear 7) ∧ (s.clear 7).inputs = s.afterReset.inputs
      ∧ s.afterReset.ibuf ≠ (s.clear 7).ibuf :=
  ⟨by decide, indistinguishable_afterReset_clear _, rfl, by decide⟩

end Sys2Proof.Tests
end

/-! The configurations a step refuses (00_scope.md R9). -/

namespace Sys2Proof

/-! ### R9's conditions, as the spec's text has them -/

/-- R9 (c) for black: the string "000", character by character. -/
theorem BitString.chars_false_iff (b : BitString) : (∀ k < 3, b.char k = false) ↔ b = 0b000 := by
  revert b
  decide

/-- R9 (c) for white: the string "111", character by character. -/
theorem BitString.chars_true_iff (b : BitString) : (∀ k < 3, b.char k = true) ↔ b = 0b111 := by
  revert b
  decide

theorem Config.distinctRgb_iff (c : Config) :
    c.DistinctRgb ↔ ∀ p q : PaletteIndex, p ≠ q → c.rgb p ≠ c.rgb q :=
  forall₂_congr fun _ _ => not_imp_not.symm

theorem Config.distinctBits_iff (c : Config) :
    c.DistinctBits ↔ ∀ p q : PaletteIndex, p ≠ q → c.bits p ≠ c.bits q :=
  forall₂_congr fun _ _ => not_imp_not.symm

theorem Config.blackWhiteFixed_iff (c : Config) :
    c.BlackWhiteFixed ↔ (∀ k < 3, (c.bits Colour.black.index).char k = false)
      ∧ ∀ k < 3, (c.bits Colour.white.index).char k = true :=
  and_congr (BitString.chars_false_iff _).symm (BitString.chars_true_iff _).symm

end Sys2Proof

namespace Sys2Proof.Machine

/-! ### An admitted configuration is never refused -/

/-- Every word is answered, with its command's effect or with an error (R201). -/
theorem performWord_goesOn (w : Word) (s : State) : ∃ t, performWord w s = .next t := by
  obtain ⟨_, _, _, _, _, h⟩ | ⟨_, _, h⟩ := performWord_cases w s
  · exact ⟨_, h⟩
  · exact ⟨_, h⟩

theorem takeOldest_goesOn (s : State) : ∃ t, takeOldest s = .next t := by
  rw [takeOldest]
  split
  · exact ⟨s, rfl⟩
  · rename_i e rest _
    cases e with
    | command w => exact performWord_goesOn w _
    | reset => exact ⟨_, rfl⟩

theorem step_of_not_admitted {s : State} (h : ¬ s.cfg.Admitted) : step s = .refused .inadmissibleConfiguration :=
  if_neg h

theorem step_refused_iff (s : State) : step s = .refused .inadmissibleConfiguration ↔ ¬ s.cfg.Admitted := by
  refine ⟨fun hr ha => ?_, step_of_not_admitted⟩
  obtain ⟨t, ht⟩ := takeOldest_goesOn s
  rw [step_of_admitted ha, ht] at hr
  cases hr

end Sys2Proof.Machine

namespace Sys2Proof.Proofs

open Sys2Proof Sys2Proof.Machine

/-- Settles O43: a step refuses exactly what `Config.Admitted` rejects, and that is R9 (a) to (d) as the spec has them. -/
theorem inadmissibleConfigurationIsRefused : Obligations.InadmissibleConfigurationIsRefused := by
  intro s
  refine (step_refused_iff s).trans (not_congr ?_)
  have bitStrings : (s.cfg.BlackWhiteFixed ∧ (s.cfg.hasRecon = true → s.cfg.DistinctBits)) ↔ _ :=
    and_congr s.cfg.blackWhiteFixed_iff (imp_congr_right fun _ => s.cfg.distinctBits_iff)
  exact and_congr s.cfg.distinctRgb_iff (and_congr_right fun _ => bitStrings.trans and_assoc)

end Sys2Proof.Proofs

/-! The configuration is fixed for the block's lifetime (10_state.md R21). -/

namespace Sys2Proof.Machine

/-- No command writes the configuration: each of its effects is on a buffer, a counter or the flag (R20, R21). -/
theorem Effect.cfg_eq {s u : State} {i : Instr} (h : Effect s i u) : u.cfg = s.cfg := by
  cases h with
  | none => rfl
  | pushi idx => exact s.pushIndex_cfg idx
  | pushb byte => exact s.pushByte_cfg byte
  | enc => exact s.encoded_cfg
  | dec => exact s.decoded_cfg
  | recon => exact s.reconstructed_cfg
  | clr mask => exact s.clear_cfg mask

theorem performWord_keeps_cfg {w : Word} {s t : State} (h : performWord w s = .next t) : t.cfg = s.cfg := by
  obtain ⟨i, u, data, -, hu, hok⟩ | ⟨e, -, herr⟩ := performWord_cases w s
  · obtain rfl := Host.Outcome.next.inj (hok.symm.trans h)
    exact hu.cfg_eq
  · obtain rfl := Host.Outcome.next.inj (herr.symm.trans h)
    exact s.answer_cfg _

theorem step_keeps_cfg {s t : State} (h : step s = .next t) : t.cfg = s.cfg := by
  obtain ⟨-, ⟨-, rfl⟩ | ⟨rest, -, rfl⟩ | ⟨w, rest, -, hw⟩⟩ := step_cases h
  · rfl
  · exact State.afterReset_cfg _
  · exact (performWord_keeps_cfg hw).trans rfl

end Sys2Proof.Machine

namespace Sys2Proof.Proofs

open Sys2Proof Sys2Proof.Machine

/-- Settles O36: an idle step, a reset and every word's answer keep the configuration the block was given. -/
theorem stepKeepsTheConfiguration : Obligations.StepKeepsTheConfiguration :=
  ⟨fun _ => rfl, fun _ _ => step_keeps_cfg⟩

end Sys2Proof.Proofs

/-! Reads and QUANT are idempotent, a push is not (20_memory.md R46). -/

namespace Sys2Proof.Machine

/-- The commands R46 calls idempotent: the four reads and QUANT. -/
abbrev ReadOnly (i : Instr) : Prop :=
  (∃ a, i = .rdi a) ∨ (∃ a, i = .rdb a) ∨ (∃ a, i = .rdd a) ∨ i = .rdstat ∨ ∃ r g b, i = .quant r g b

theorem Effect.eq_of_readOnly {s u : State} {i : Instr} (hu : Effect s i u) (hi : ReadOnly i) : u = s := by
  rcases hi with ⟨_, rfl⟩ | ⟨_, rfl⟩ | ⟨_, rfl⟩ | rfl | ⟨_, _, _, rfl⟩
  all_goals cases hu; rfl

/-- Whether it answers with a value or an error, a read keeps the block and adds one response. -/
theorem exec_readOnly {i : Instr} (hi : ReadOnly i) (s : State) : ∃ resp, exec i s = .next (s.answer resp) := by
  obtain ⟨u, data, hu, hok⟩ | ⟨e, -, herr⟩ := exec_cases i s
  · obtain rfl := hu.eq_of_readOnly hi
    exact ⟨_, hok⟩
  · exact ⟨_, herr⟩

/-- The response of an outcome is its state's newest response. -/
theorem response_unique {r : Result} {s u : State} {resp resp' : Word} (h : r = .next (s.answer resp))
    (h' : r = .next (u.answer resp')) : resp = resp' := by
  have hresponses : s.responses ++ [resp] = u.responses ++ [resp'] :=
    congrArg State.responses (Host.Outcome.next.inj (h.symm.trans h'))
  exact (List.append_singleton_inj.mp hresponses).2

theorem HostIndistinguishable.exec_readOnly {s t : State} (h : HostIndistinguishable s t) {i : Instr} (hi : ReadOnly i)
    {resp : Word} (hs : Machine.exec i s = .next (s.answer resp)) : Machine.exec i t = .next (t.answer resp) := by
  obtain ⟨u, v, answered, hu, hv, -⟩ := h.exec i
  obtain ⟨resp', ht⟩ := Machine.exec_readOnly hi t
  rw [ht, response_unique ht hv, response_unique hs hu]

theorem SameBlock.refl (s : State) : SameBlock s s := ⟨rfl, rfl, rfl, rfl, rfl, rfl, rfl⟩

theorem SameBlock.hostIndistinguishable {s t : State} (h : SameBlock s t) : HostIndistinguishable s t :=
  (HostIndistinguishable.refl s).of_sameBlock (SameBlock.refl s) h

theorem bump_val_of_lt {c : Counter} (h : c.val < 2047) : (bump c).val = c.val + 1 := Nat.min_eq_left h

end Sys2Proof.Machine

namespace Sys2Proof.Proofs

open Sys2Proof Sys2Proof.Machine

/-- Settles O38: a read has no effect, and its answer depends on the block only, since the host cannot tell two states with
the same block apart; a push has an effect, its counter's advance. -/
theorem readsAreIdempotent : Obligations.ReadsAreIdempotent := by
  refine ⟨fun i s hi => ?_, fun idx s h => ⟨_, rfl, bump_val_of_lt h⟩, fun byte s h => ⟨_, rfl, bump_val_of_lt h⟩⟩
  obtain ⟨resp, hs⟩ := exec_readOnly hi s
  exact ⟨resp, fun t hst => hst.hostIndistinguishable.exec_readOnly hi hs⟩

end Sys2Proof.Proofs

/-! The opcode map and the fields of every format (30_encoding.md R61 to R65). -/

namespace Sys2Proof

/-! ### The row of an opcode -/

/-- OP of a row is fixed by its pattern: the mask covers all four OP bits of a word (R64). -/
theorem OpcodeRow.opcode_of_matches {row : OpcodeRow} (hrow : row ∈ opcodeTable) {w : Word} (h : row.matches w = true) :
    w.extractLsb' 28 4 = row.pattern.extractLsb' 28 4 := by
  have hmask : ∀ row ∈ opcodeTable, row.mask.extractLsb' 28 4 = BitVec.allOnes 4 := by decide
  rw [← (beq_iff_eq.mp h : w &&& row.mask = row.pattern), BitVec.extractLsb'_and, hmask row hrow, BitVec.and_allOnes]

/-- "OP selects the format and the command": no two rows of the opcode map share an opcode (R61, R63). -/
theorem row_eq_of_opcode_eq : ∀ row ∈ opcodeTable, ∀ other ∈ opcodeTable,
    other.pattern.extractLsb' 28 4 = row.pattern.extractLsb' 28 4 → other = row := by decide

/-- Only the row of a word's opcode decides what the word is. -/
theorem decode_of_opcode {row : OpcodeRow} (hrow : row ∈ opcodeTable) {w : Word}
    (hop : w.extractLsb' 28 4 = row.pattern.extractLsb' 28 4) :
    decode w = if row.matches w = true then some (row.op.operands w) else none := by
  have honly : ∀ other ∈ opcodeTable, other.matches w = true → other = row := fun other hother hmatch =>
    row_eq_of_opcode_eq row hrow other hother ((other.opcode_of_matches hother hmatch).symm.trans hop)
  split
  case isTrue hmatch =>
    have hsome : (opcodeTable.find? (·.matches w)).isSome := List.find?_isSome.mpr ⟨row, hrow, hmatch⟩
    obtain ⟨found, hfound⟩ := Option.isSome_iff_exists.mp hsome
    obtain rfl := honly found (List.mem_of_find?_eq_some hfound) (List.find?_some (p := (OpcodeRow.matches · w)) hfound)
    rw [decode, hfound, Option.map_some]
  case isFalse hmatch =>
    have hnone : opcodeTable.find? (·.matches w) = none :=
      List.find?_eq_none.mpr fun other hother h => hmatch (honly other hother h ▸ h)
    rw [decode, hnone, Option.map_none]

/-- The opcodes 0xC to 0xF have no row (R63). -/
theorem decode_eq_none_of_reserved_opcode {w : Word} (h : 0xC ≤ (w.extractLsb' 28 4).toNat) : decode w = none := by
  have hopcodes : ∀ row ∈ opcodeTable, (row.pattern.extractLsb' 28 4).toNat < 0xC := by decide
  have hnone : opcodeTable.find? (·.matches w) = none := List.find?_eq_none.mpr fun row hrow hmatch =>
    Nat.not_lt.mpr h (row.opcode_of_matches hrow hmatch ▸ hopcodes row hrow)
  rw [decode, hnone, Option.map_none]

/-! ### The reserved bits and the operands of a format -/

theorem opcode_toNat (w : Word) : (w.extractLsb' 28 4).toNat = w.toNat / 2 ^ 28 := by
  have h : (w.extractLsb' 28 4).toNat = w.toNat / 2 ^ 28 % 2 ^ 4 := field_toNat w 28 4
  omega

/-- A word of a row's opcode matches the row exactly when the reserved bits of the row's format are all 0: above the
operands both then hold OP and zeros. -/
theorem OpcodeRow.matches_iff_reserved_zero {row : OpcodeRow} {op : BitVec 4} {bits : Nat} (hbits : bits ≤ 28)
    (hmask : row.mask = BitVec.allOnes 32 <<< bits) (hpattern : row.pattern = op ++ 0#28) {w : Word}
    (hop : w.extractLsb' 28 4 = op) : row.matches w = true ↔ w.extractLsb' bits (28 - bits) = 0 := by
  have hsplit : 2 ^ bits * 2 ^ (28 - bits) = 2 ^ 28 := pow_mul_pow_sub 2 hbits
  have hnumber : row.pattern.toNat = op.toNat * 2 ^ (28 - bits) * 2 ^ bits := by
    rw [hpattern, toNat_append_eq_add, ← hsplit, BitVec.toNat_zero, Nat.add_zero, Nat.mul_assoc, Nat.mul_comm (2 ^ bits)]
  have hquotient : w.toNat / 2 ^ bits / 2 ^ (28 - bits) = op.toNat := by
    rw [Nat.div_div_eq_div_mul, hsplit, ← opcode_toNat, hop]
  have hreserved : w.extractLsb' bits (28 - bits) = 0 ↔ w.toNat / 2 ^ bits % 2 ^ (28 - bits) = 0 :=
    BitVec.toNat_inj.symm.trans (Eq.congr (field_toNat w bits (28 - bits)) BitVec.toNat_zero)
  rw [row.matches_iff bits hmask (hnumber ▸ Nat.mul_mod_left _ _), decide_eq_true_eq, hnumber,
    Nat.mul_div_cancel _ (Nat.two_pow_pos bits), ← hquotient, hreserved, ← Nat.dvd_iff_mod_eq_zero, Nat.dvd_iff_div_mul_eq]
  exact eq_comm

/-- A field within the operand bits of a format is the same field of the word. -/
theorem extractLsb'_field (w : Word) {lo width bits : Nat} (h : lo + width ≤ bits) :
    (field w 0 bits).extractLsb' lo width = field w lo width := by
  ext i hi
  have : lo + i < bits := by omega
  simp [field, this]

/-- A row of the opcode map gives the words of its opcode their format and their operands. -/
theorem Machine.DecodesAs.of_row {op : BitVec 4} {bits : Nat} {build : BitVec bits → Instr} (row : OpcodeRow)
    (hoperands : ∀ w, row.op.operands w = build (field w 0 bits)) (hrow : row ∈ opcodeTable := by decide)
    (hbits : bits ≤ 28 := by decide) (hmask : row.mask = BitVec.allOnes 32 <<< bits := by decide)
    (hpattern : row.pattern = op ++ 0#28 := by decide) : DecodesAs op bits build := by
  intro w hop
  have hrowOp : row.pattern.extractLsb' 28 4 = op := by
    rw [hpattern]
    exact BitVec.extractLsb'_append_eq_left
  rw [decode_of_opcode hrow (hop.trans hrowOp.symm), hoperands, field]
  exact if_congr (row.matches_iff_reserved_zero hbits hmask hpattern hop) rfl rfl

/-! ### RECON and the configuration -/

theorem Instr.wf_eq_false_iff {c : Config} {i : Instr} : i.wf c = false ↔ c.hasRecon = false ∧ i = .recon := by
  cases i <;> simp [Instr.wf]

/-- The configuration's decoder differs from `decode` on RECON without HAS_RECON only (R64). -/
theorem decodeFor_eq (c : Config) (w : Word) :
    decodeFor c w = if c.hasRecon = false ∧ decode w = some .recon then none else decode w := by
  rw [decodeFor]
  cases decode w with
  | none => simp
  | some i =>
    simp only [Option.filter_some, Option.some_inj, ← Instr.wf_eq_false_iff]
    cases i.wf c <;> rfl

end Sys2Proof

namespace Sys2Proof.Proofs

open Sys2Proof Sys2Proof.Machine

/-- Settles O5: each opcode below 0xC has one row of the opcode map, whose mask and pattern give the format. -/
theorem eachFormatGivesItsOperands : Obligations.EachFormatGivesItsOperands :=
  ⟨.of_row ⟨.nop, 0xFFFFFFFF, 0x00000000⟩ fun _ => rfl,
    .of_row ⟨.quant, 0xFF000000, 0x10000000⟩ fun w => by
      simp only [Opcode.operands, extractLsb'_field w (show 16 + 8 ≤ 24 by decide),
        extractLsb'_field w (show 8 + 8 ≤ 24 by decide), extractLsb'_field w (show 0 + 8 ≤ 24 by decide)],
    .of_row ⟨.pushi, 0xFFFFFFF8, 0x20000000⟩ fun _ => rfl,
    .of_row ⟨.pushb, 0xFFFFFF00, 0x30000000⟩ fun _ => rfl,
    .of_row ⟨.enc, 0xFFFFFFFF, 0x40000000⟩ fun _ => rfl,
    .of_row ⟨.dec, 0xFFFFFFFF, 0x50000000⟩ fun _ => rfl,
    .of_row ⟨.recon, 0xFFFFFFFF, 0x60000000⟩ fun _ => rfl,
    .of_row ⟨.clr, 0xFFFFFFF8, 0x70000000⟩ fun _ => rfl,
    .of_row ⟨.rdi, 0xFFFFFC00, 0x80000000⟩ fun _ => rfl,
    .of_row ⟨.rdb, 0xFFFFFE00, 0x90000000⟩ fun _ => rfl,
    .of_row ⟨.rdd, 0xFFFFF000, 0xA0000000⟩ fun _ => rfl,
    .of_row ⟨.rdstat, 0xFFFFFFFF, 0xB0000000⟩ fun _ => rfl,
    fun _ => decode_eq_none_of_reserved_opcode, decodeFor_eq⟩

end Sys2Proof.Proofs

/-! The words R65 calls ILLEGAL. -/

namespace Sys2Proof

/-- R65 (a) and (b): a reserved OP, or a 1 in a reserved bit of OP's format, in a word with the number `low` below OP. -/
abbrev ReservedFields (opcode low : Nat) : Prop :=
  12 ≤ opcode
    ∨ (opcode ∈ [0x0, 0x4, 0x5, 0x6, 0xB] ∧ low ≠ 0)
    ∨ (opcode = 0x1 ∧ 2 ^ 24 ≤ low)
    ∨ (opcode ∈ [0x2, 0x7] ∧ 2 ^ 3 ≤ low)
    ∨ (opcode = 0x3 ∧ 2 ^ 8 ≤ low)
    ∨ (opcode = 0x8 ∧ 2 ^ 10 ≤ low)
    ∨ (opcode = 0x9 ∧ 2 ^ 9 ≤ low)
    ∨ (opcode = 0xA ∧ 2 ^ 12 ≤ low)

/-- The bits between OP and the operands are all 0 exactly when the word's number below OP fits in the operand bits. -/
theorem reserved_eq_zero_iff (w : Word) {bits : Nat} (hbits : bits ≤ 28) :
    w.extractLsb' bits (28 - bits) = 0 ↔ w.toNat % 2 ^ 28 < 2 ^ bits := by
  have hsplit : 2 ^ bits * 2 ^ (28 - bits) = 2 ^ 28 := pow_mul_pow_sub 2 hbits
  have hnumber : (w.extractLsb' bits (28 - bits)).toNat = w.toNat % 2 ^ 28 / 2 ^ bits :=
    (field_toNat w bits (28 - bits)).trans (by rw [← hsplit, Nat.mod_mul_right_div_self])
  rw [← Nat.div_eq_zero_iff_lt (Nat.two_pow_pos bits), ← hnumber]
  exact BitVec.toNat_inj.symm

theorem Machine.DecodesAs.eq_none_iff {op : BitVec 4} {bits : Nat} {build : BitVec bits → Instr} (h : DecodesAs op bits build)
    {w : Word} (hop : w.toNat / 2 ^ 28 = op.toNat) (hbits : bits ≤ 28 := by decide) :
    decode w = none ↔ 2 ^ bits ≤ w.toNat % 2 ^ 28 := by
  rw [h w (BitVec.eq_of_toNat_eq ((opcode_toNat w).trans hop)), ← Nat.not_lt, ← reserved_eq_zero_iff w hbits]
  simp only [ite_eq_right_iff, reduceCtorEq, imp_false]

/-- Opcode by opcode, the words no command's format admits. -/
theorem decode_eq_none_iff_reservedFields (w : Word) :
    decode w = none ↔ ReservedFields (w.toNat / 2 ^ 28) (w.toNat % 2 ^ 28) := by
  obtain ⟨hNop, hQuant, hPushi, hPushb, hEnc, hDec, hRecon, hClr, hRdi, hRdb, hRdd, hRdstat, hReserved, -⟩ :=
    Proofs.eachFormatGivesItsOperands
  have hnone (h : 12 ≤ w.toNat / 2 ^ 28) : decode w = none := hReserved w ((opcode_toNat w).symm ▸ h)
  have hlt : w.toNat / 2 ^ 28 < 16 := by omega
  generalize hop : w.toNat / 2 ^ 28 = opcode at hnone hlt ⊢
  interval_cases opcode
  · simpa [ReservedFields, Nat.one_le_iff_ne_zero] using hNop.eq_none_iff hop
  · simpa [ReservedFields] using hQuant.eq_none_iff hop
  · simpa [ReservedFields] using hPushi.eq_none_iff hop
  · simpa [ReservedFields] using hPushb.eq_none_iff hop
  · simpa [ReservedFields, Nat.one_le_iff_ne_zero] using hEnc.eq_none_iff hop
  · simpa [ReservedFields, Nat.one_le_iff_ne_zero] using hDec.eq_none_iff hop
  · simpa [ReservedFields, Nat.one_le_iff_ne_zero] using hRecon.eq_none_iff hop
  · simpa [ReservedFields] using hClr.eq_none_iff hop
  · simpa [ReservedFields] using hRdi.eq_none_iff hop
  · simpa [ReservedFields] using hRdb.eq_none_iff hop
  · simpa [ReservedFields] using hRdd.eq_none_iff hop
  · simpa [ReservedFields, Nat.one_le_iff_ne_zero] using hRdstat.eq_none_iff hop
  all_goals simpa [ReservedFields] using hnone (by decide)

theorem decode_eq_recon_iff (w : Word) : decode w = some .recon ↔ w.toNat = 0x60000000 := by
  have hw := decode_reads w
  generalize decode w = read at hw ⊢
  cases hw with
  | recon h => simp only [h]
  | none => simp only [reduceCtorEq, false_iff]; omega
  | _ => simp only [Option.some_inj, reduceCtorEq, false_iff]; omega

theorem decode_eq_recon_iff_of_decoded {w : Word} (h : decode w ≠ none) :
    decode w = some .recon ↔ w.toNat / 2 ^ 28 = 0x6 := by
  have hlow (hop : w.toNat / 2 ^ 28 = 0x6) : w.toNat % 2 ^ 28 = 0 := by_contra fun hne =>
    h ((decode_eq_none_iff_reservedFields w).mpr (.inr (.inl ⟨by rw [hop]; decide, hne⟩)))
  rw [decode_eq_recon_iff]
  omega

theorem decodeFor_eq_none_iff (c : Config) (w : Word) :
    decodeFor c w = none ↔ decode w = none ∨ (decode w = some .recon ∧ c.hasRecon = false) := by
  rw [decodeFor_eq]
  split
  case isTrue h => simp [h]
  case isFalse h => exact (or_iff_left (mt And.symm h)).symm

namespace Machine

theorem exec_recon_of_absent {s : State} (h : s.cfg.hasRecon = false) :
    exec .recon s = .next (s.answer (responseWord .illegal 0)) :=
  (if_pos h).trans (raise_eq .illegal s)

/-- A word the configuration's decoder refuses answers ILLEGAL, by the decoder or by RECON's own check (R65, R150). -/
theorem performWord_of_refused {s : State} {w : Word} (h : decodeFor s.cfg w = none) :
    performWord w s = .next (s.answer (responseWord .illegal 0)) := by
  obtain hnone | ⟨hrecon, habsent⟩ := (decodeFor_eq_none_iff s.cfg w).mp h
  · exact performWord_of_undecoded hnone s
  · rw [performWord_of_decode hrecon, exec_recon_of_absent habsent]

end Machine
end Sys2Proof

namespace Sys2Proof.Proofs

open Sys2Proof Sys2Proof.Machine

/-- Settles O6: the words with reserved fields are those `decode` refuses, and RECON without HAS_RECON is the one other word. -/
theorem illegalWordsAnswerIllegal : Obligations.IllegalWordsAnswerIllegal := by
  intro s w
  constructor
  · rw [decodeFor_eq_none_iff, or_congr_right' fun h => and_congr_left' (decode_eq_recon_iff_of_decoded h),
      decode_eq_none_iff_reservedFields]
    simp only [ReservedFields, or_assoc]
  · intro h
    rw [performWord_of_refused h, responseWord_illegal, State.answer]

end Sys2Proof.Proofs

/-! The pseudo-instructions and the encoding examples (30_encoding.md R70, R71). -/

namespace Sys2Proof.Machine

theorem fit_toNat {w : Nat} (v : BitVec w) : fit w v.toNat = some v := by
  rw [fit, if_pos v.isLt, BitVec.ofNat_toNat, BitVec.setWidth_eq]

/-- Operands that each have a value: one command for each, in order (R70). -/
theorem mapM_map_of_values {α β γ : Type} {value : α → Option β} {operands : List α} {values : List β} (command : β → γ)
    (h : operands.map value = values.map some) :
    (operands.mapM fun a => (value a).map command) = some (values.map command) :=
  calc (operands.mapM fun a => (value a).map command)
    _ = (operands.map value).mapM (Option.map command) := (List.mapM_map (f := value) (g := Option.map command)).symm
    _ = (values.map some).mapM (Option.map command) := by rw [h]
    _ = values.mapM fun v => some (command v) := List.mapM_map
    _ = some (values.map command) := List.mapM_pure

/-- R70's REP: "n copies". -/
theorem assemble_rep {n : Nat} {c : AsmCommand} {i : Instr} (hn : 1 ≤ n) (hc : c.assemble = some i) :
    (AsmLine.rep n c).assemble = some (List.replicate n i) := by
  rw [AsmLine.assemble, if_neg (Nat.one_le_iff_ne_zero.mp hn), hc, Option.map_some]

theorem assemble_filli {idx : IndexOperand} {p : PaletteIndex} (h : idx.value = some p) :
    (AsmLine.filli idx).assemble = some (.clr 1 :: List.replicate 1024 (.pushi p)) := by
  rw [AsmLine.assemble, h, Option.map_some]

theorem assemble_loadi {ps : List IndexOperand} {vs : List PaletteIndex} (hne : ps ≠ [])
    (h : ps.map IndexOperand.value = vs.map some) : (AsmLine.loadi ps).assemble = some (vs.map Instr.pushi) := by
  rw [AsmLine.assemble, if_neg hne, mapM_map_of_values Instr.pushi h]

theorem assemble_loadb {vs : List Byte} (hne : vs ≠ []) :
    (AsmLine.loadb (vs.map BitVec.toNat)).assemble = some (vs.map Instr.pushb) := by
  have hvalues : (vs.map BitVec.toNat).map (fit 8) = vs.map some := by
    rw [List.map_map]
    exact List.map_congr_left fun v _ => fit_toNat v
  rw [AsmLine.assemble, if_neg (mt List.map_eq_nil_iff.mp hne), mapM_map_of_values Instr.pushb hvalues]

end Sys2Proof.Machine

namespace Sys2Proof.Proofs

open Sys2Proof Sys2Proof.Machine

/-- Settles O50: CLR ALL and CLR 7 are the same command, REP and FILLI repeat one, and LOADI and LOADB read their operands
one by one. -/
theorem pseudoInstructionsExpand : Obligations.PseudoInstructionsExpand :=
  ⟨rfl, fun _ _ _ => assemble_rep, fun _ _ => assemble_filli, fun _ _ => assemble_loadi, fun _ => assemble_loadb⟩

/-- Settles O4: each example is a closed text or word, so the assembler and the decoder run on it. -/
theorem exampleWordsDecodeAsWritten : Obligations.ExampleWordsDecodeAsWritten := by
  unfold Obligations.ExampleWordsDecodeAsWritten
  decide

end Sys2Proof.Proofs

/-! What QUANT answers, and the channels of its distance (40_quantizer.md R104 to R109). -/

namespace Sys2Proof

theorem Rgb12.eq_of_channels {x y : Rgb12} (hr : x.r = y.r) (hg : x.g = y.g) (hb : x.b = y.b) : x = y := by
  cases x
  cases y
  exact Rgb12.mk.injEq .. |>.mpr ⟨hr, hg, hb⟩

end Sys2Proof

namespace Sys2Proof.Machine

/-! ### QUANT's response -/

/-- The response that carries a palette index: "DATA[2:0] = palette index, DATA[27:3] = 0", with ERR = OK (R67, R104). -/
theorem responseWord_ok_paletteIndex (p : PaletteIndex) : responseWord .ok (p.setWidth 28) = 0#29 ++ p := by
  revert p
  decide

theorem exec_quant (r g b : Byte) (s : State) :
    exec (.quant r g b) s = .next { s with responses := s.responses ++ [0#29 ++ nearest s.cfg r g b] } := by
  rw [exec, execQuant, respond_eq, responseWord_ok_paletteIndex, State.answer]

theorem paletteIndex_response_lt (p : PaletteIndex) : (0#29 ++ p).toNat < 8 := by
  rw [toNat_append_eq_add, BitVec.toNat_zero, Nat.zero_mul, Nat.zero_add]
  exact p.isLt

/-- QUANT reads PALETTE_RGB and REF_MODE only (R104, R105). -/
theorem nearest_congr {c c' : Config} (hrgb : c'.paletteRgb = c.paletteRgb) (hmode : c'.refMode = c.refMode)
    (r g b : Byte) : nearest c' r g b = nearest c r g b := by
  have hdistance (p : PaletteIndex) : distance c' r g b p = distance c r g b p := by
    simp only [distance, Config.rgb, hrgb, hmode]
  have hnearer : nearer c' r g b = nearer c r g b := by
    funext best p
    simp only [nearer, hdistance]
  rw [nearest, nearest, hnearer]

/-! ### The difference of a channel -/

@[simp] theorem scale_zero (mode : RefMode) : scale mode 0 = 0 := by
  cases mode <;> rfl

/-- One channel's difference from a reference, on the input's scale (R105, R106). -/
def channelDifference (mode : RefMode) (v : Byte) (ref : BitVec 4) : Int := (v.toNat : Int) - scale mode ref

theorem channelDifference_eq (mode : RefMode) (v : Byte) (ref : BitVec 4) :
    channelDifference mode v ref = (v.toNat : Int) - (if mode = .nibble then 1 else 17) * (ref.toNat : Int) := by
  cases mode <;> simp [channelDifference, scale]

theorem channelDistance_eq_sq (mode : RefMode) (v : Byte) (ref : BitVec 4) :
    channelDistance mode v ref = channelDifference mode v ref ^ 2 := (sq _).symm

/-- Both terms of the difference are in 0..255. -/
theorem channelDifference_bounds (mode : RefMode) (v : Byte) (ref : BitVec 4) :
    -255 ≤ channelDifference mode v ref ∧ channelDifference mode v ref ≤ 255 ∧ channelDifference mode v ref ^ 2 ≤ 65025 := by
  have hscale := scale_le mode ref
  have hv := v.isLt
  refine ⟨?_, ?_, channelDistance_eq_sq mode v ref ▸ channelDistance_le mode v ref⟩ <;> rw [channelDifference] <;> omega

/-! ### Channel by channel -/

/-- A channel of value `v` is strictly nearer to `near` than to `far`, unless the two are the same reference. -/
abbrev ChannelPrefers (mode : RefMode) (v : Byte) (near far : BitVec 4) : Prop :=
  far ≠ near → channelDistance mode v near < channelDistance mode v far

theorem ChannelPrefers.le {mode : RefMode} {v : Byte} {near far : BitVec 4} (h : ChannelPrefers mode v near far) :
    channelDistance mode v near ≤ channelDistance mode v far := by
  by_cases heq : far = near
  · rw [heq]
  · exact (h heq).le

/-- "`dist` splits into one term per channel" (R109): the index every channel prefers is strictly nearer than one of another
reference. -/
theorem distance_lt_of_channelPrefers {c : Config} {r g b : Byte} {p q : PaletteIndex} (hne : c.rgb q ≠ c.rgb p)
    (hr : ChannelPrefers c.refMode r (c.rgb p).r (c.rgb q).r) (hg : ChannelPrefers c.refMode g (c.rgb p).g (c.rgb q).g)
    (hb : ChannelPrefers c.refMode b (c.rgb p).b (c.rgb q).b) : distance c r g b p < distance c r g b q := by
  have hchannel : (c.rgb q).r ≠ (c.rgb p).r ∨ (c.rgb q).g ≠ (c.rgb p).g ∨ (c.rgb q).b ≠ (c.rgb p).b := by
    by_contra! heq
    obtain ⟨hreq, hgeq, hbeq⟩ := heq
    exact hne (Rgb12.eq_of_channels hreq hgeq hbeq)
  have hrle := hr.le
  have hgle := hg.le
  have hble := hb.le
  rw [distance, distance]
  rcases hchannel with h | h | h
  · linarith only [hr h, hgle, hble]
  · linarith only [hrle, hg h, hble]
  · linarith only [hrle, hgle, hb h]

/-- A channel prefers its own reference: its distance from it is 0, and from any other reference it is not. -/
theorem channelPrefers_of_eq_scale {mode : RefMode} {v : Byte} {near : BitVec 4} (h : v.toNat = scale mode near)
    (far : BitVec 4) : ChannelPrefers mode v near far := by
  intro hne
  have hnonzero : channelDistance mode v far ≠ 0 := fun hzero =>
    hne (scale_injective ((channelDistance_eq_zero.mp hzero).symm.trans h))
  rw [channelDistance_eq_zero.mpr h]
  exact lt_of_le_of_ne (channelDistance_nonneg mode v far) hnonzero.symm

/-- A full channel prefers the full reference, also under NIBBLE, where no reference reaches it (R104's worked example). -/
theorem channelPrefers_full (mode : RefMode) (far : BitVec 4) : ChannelPrefers mode 255 0xF far := by
  cases mode with
  | nibble => revert far; decide
  | replicated => exact channelPrefers_of_eq_scale rfl far

/-- With distinct references, QUANT answers the index each channel prefers to the references of all others. -/
theorem nearest_eq_of_channelPrefers {c : Config} (hc : c.DistinctRgb) {r g b : Byte} {p : PaletteIndex}
    (hr : ∀ far, ChannelPrefers c.refMode r (c.rgb p).r far) (hg : ∀ far, ChannelPrefers c.refMode g (c.rgb p).g far)
    (hb : ∀ far, ChannelPrefers c.refMode b (c.rgb p).b far) : nearest c r g b = p :=
  nearest_eq_of_first fun q hq => distance_lt_of_channelPrefers (mt (hc q p) hq) (hr _) (hg _) (hb _)

/-- Self-consistency (R108 (b)). -/
theorem nearest_own_reference {c : Config} (hc : c.DistinctRgb) {r g b : Byte} {p : PaletteIndex}
    (hr : r.toNat = scale c.refMode (c.rgb p).r) (hg : g.toNat = scale c.refMode (c.rgb p).g)
    (hb : b.toNat = scale c.refMode (c.rgb p).b) : nearest c r g b = p :=
  nearest_eq_of_channelPrefers hc (channelPrefers_of_eq_scale hr) (channelPrefers_of_eq_scale hg)
    (channelPrefers_of_eq_scale hb)

theorem nearest_full_red {c : Config} (hc : c.DistinctRgb) (hred : c.RedFixed) : nearest c 255 0 0 = 1 := by
  have hzero : (0 : Byte).toNat = scale c.refMode 0 := (scale_zero c.refMode).symm
  apply nearest_eq_of_channelPrefers hc <;> rw [hred]
  · exact channelPrefers_full c.refMode
  · exact channelPrefers_of_eq_scale hzero
  · exact channelPrefers_of_eq_scale hzero

/-! ### The corners of the default palette -/

/-- The side a channel takes under the default PALETTE_RGB: T's from the threshold on, else 0's (R109). -/
def cornerChannel (mode : RefMode) (v : Byte) : BitVec 4 := if channelThreshold mode ≤ v.toNat then 0xF else 0

/-- The default entries are "the 8 corners of the cube {0, T}^3" (R109). -/
theorem defaultPaletteRgb_corners (p : PaletteIndex) :
    ((Config.defaultPaletteRgb.get p.toFin).r = 0 ∨ (Config.defaultPaletteRgb.get p.toFin).r = 0xF)
      ∧ ((Config.defaultPaletteRgb.get p.toFin).g = 0 ∨ (Config.defaultPaletteRgb.get p.toFin).g = 0xF)
      ∧ ((Config.defaultPaletteRgb.get p.toFin).b = 0 ∨ (Config.defaultPaletteRgb.get p.toFin).b = 0xF) := by
  revert p
  decide

theorem defaultPaletteRgb_injective (p q : PaletteIndex)
    (h : Config.defaultPaletteRgb.get p.toFin = Config.defaultPaletteRgb.get q.toFin) : p = q := by
  revert p q
  decide

/-- The table of R109 names the corner whose channels are the sides the three channels take. -/
theorem defaultPaletteRgb_closedFormIndex (mode : RefMode) (r g b : Byte) :
    Config.defaultPaletteRgb.get (closedFormIndex mode r g b).toFin
      = ⟨cornerChannel mode r, cornerChannel mode g, cornerChannel mode b⟩ := by
  by_cases hr : channelThreshold mode ≤ r.toNat <;> by_cases hg : channelThreshold mode ≤ g.toNat <;>
    by_cases hb : channelThreshold mode ≤ b.toNat <;> simp only [closedFormIndex, cornerChannel, hr, hg, hb] <;> rfl

/-- What decides R109's "`(c - T)^2 < c^2`": twice the channel value against T. -/
theorem channelDistance_zero_sub_full (mode : RefMode) (v : Byte) :
    channelDistance mode v 0 - channelDistance mode v 0xF
      = (scale mode 0xF : Int) * (2 * (v.toNat : Int) - scale mode 0xF) := by
  rw [channelDistance, channelDistance, scale_zero]
  ring

theorem channelDistance_full_lt_zero {mode : RefMode} {v : Byte} (h : channelThreshold mode ≤ v.toNat) :
    channelDistance mode v 0xF < channelDistance mode v 0 := by
  have hsub := channelDistance_zero_sub_full mode v
  cases mode <;> simp only [scale, channelThreshold, BitVec.reduceToNat] at hsub h <;> omega

/-- T is odd, so a channel below the threshold is not at the middle either (R109). -/
theorem channelDistance_zero_lt_full {mode : RefMode} {v : Byte} (h : ¬ channelThreshold mode ≤ v.toNat) :
    channelDistance mode v 0 < channelDistance mode v 0xF := by
  have hsub := channelDistance_zero_sub_full mode v
  cases mode <;> simp only [scale, channelThreshold, BitVec.reduceToNat] at hsub h <;> omega

theorem channelPrefers_cornerChannel (mode : RefMode) (v : Byte) {far : BitVec 4} (hfar : far = 0 ∨ far = 0xF) :
    ChannelPrefers mode v (cornerChannel mode v) far := by
  intro hne
  rw [cornerChannel] at hne ⊢
  split at hne
  case isTrue h =>
    rw [if_pos h, hfar.resolve_right hne]
    exact channelDistance_full_lt_zero h
  case isFalse h =>
    rw [if_neg h, hfar.resolve_left hne]
    exact channelDistance_zero_lt_full h

theorem closedFormIndex_nearest {c : Config} (hc : c.paletteRgb = Config.defaultPaletteRgb) (r g b : Byte)
    {q : PaletteIndex} (hq : q ≠ closedFormIndex c.refMode r g b) :
    distance c r g b (closedFormIndex c.refMode r g b) < distance c r g b q := by
  have hrgb (p : PaletteIndex) : c.rgb p = Config.defaultPaletteRgb.get p.toFin := by rw [Config.rgb, hc]
  obtain ⟨hr, hg, hb⟩ := defaultPaletteRgb_corners q
  apply distance_lt_of_channelPrefers <;> rw [hrgb, hrgb]
  · exact mt (defaultPaletteRgb_injective q _) hq
  all_goals rw [defaultPaletteRgb_closedFormIndex]
  · exact channelPrefers_cornerChannel c.refMode r hr
  · exact channelPrefers_cornerChannel c.refMode g hg
  · exact channelPrefers_cornerChannel c.refMode b hb

end Sys2Proof.Machine

namespace Sys2Proof.Proofs

open Sys2Proof Sys2Proof.Machine

/-- Settles O8: the scan answers the first nearest of the 8 indices, and opcode 0x1 decodes as QUANT of its fields. -/
theorem quantAnswersFirstNearestIndex : Obligations.QuantAnswersFirstNearestIndex := by
  obtain ⟨-, hdecodes, -⟩ := eachFormatGivesItsOperands
  refine ⟨fun r g b s => ?_, .of_decodesAs hdecodes⟩
  obtain ⟨-, hmin, hfirst⟩ := nearest_firstNearest s.cfg r g b
  exact ⟨_, exec_quant r g b s, fun q => hmin q (mem_paletteIndices q), fun q => hfirst q (mem_paletteIndices q)⟩

/-- Settles O9: each channel's term is the square of a difference of two values in 0..255. -/
theorem distanceIsExactAndBounded : Obligations.DistanceIsExactAndBounded := by
  intro c r g b p
  have nonneg := channelDistance_nonneg c.refMode
  have le := channelDistance_le c.refMode
  have bounds := channelDifference_bounds c.refMode
  refine ⟨_, _, _, channelDifference_eq c.refMode r _, channelDifference_eq c.refMode g _, channelDifference_eq c.refMode b _,
    ?_, ?_, ?_, ?_⟩
  · simp only [distance, channelDistance_eq_sq]
  · rw [List.forall_mem_cons, List.forall_mem_cons, List.forall_mem_singleton]
    exact ⟨bounds r _, bounds g _, bounds b _⟩
  · exact add_nonneg (add_nonneg (nonneg r _) (nonneg g _)) (nonneg b _)
  · exact add_le_add (add_le_add (le r _) (le g _)) (le b _)

/-- Settles O10: the response carries an index; a colour on an index's reference, or full red under either scale, is strictly
nearest to that index channel by channel; and the scan reads PALETTE_RGB and REF_MODE only. -/
theorem quantIsClosedSelfConsistentDeterministic : Obligations.QuantIsClosedSelfConsistentDeterministic := by
  refine ⟨fun r g b s => ⟨_, exec_quant r g b s, paletteIndex_response_lt _⟩, fun r g b p s hs hr hg hb => ?_,
    fun r g b s s' hrgb hmode => ⟨_, exec_quant r g b s, ?_⟩, fun s hs => ⟨fun hmode => ?_, ?_⟩⟩
  · obtain ⟨hdistinct, -⟩ := hs
    rw [exec_quant, nearest_own_reference hdistinct hr hg hb]
  · rw [exec_quant, nearest_congr hrgb hmode]
  all_goals obtain ⟨hdistinct, hred, -⟩ := hs
  · have hown : nearest s.cfg 15 0 0 = 1 := by
      apply nearest_own_reference hdistinct <;> rw [hmode, hred] <;> rfl
    rw [exec_quant, hown]
    rfl
  · rw [exec_quant, nearest_full_red hdistinct hred]
    rfl

/-- Settles O11: every channel strictly prefers its side of R109's threshold, so the corner those sides name is nearest. -/
theorem quantClosedFormUnderDefaultPalette : Obligations.QuantClosedFormUnderDefaultPalette := by
  intro r g b s hs
  have hnearest (q) := closedFormIndex_nearest hs r g b (q := q)
  exact ⟨by rw [exec_quant, nearest_eq_of_first hnearest], hnearest⟩

end Sys2Proof.Proofs

/-! ENC: the bits of each byte it packs, and the place of each pixel's bits (41_bitplane_encode.md R120 to R125). -/

namespace Sys2Proof.Machine

/-! ### What ENC answers -/

theorem exec_enc_of_full {s : State} (h : s.icnt.val = npix) :
    exec .enc s = .next (s.encoded.answer (responseWord .ok 0)) :=
  (if_neg (not_not.mpr h)).trans (respond_eq 0 s.encoded)

theorem exec_enc_of_not_full {s : State} (h : s.icnt.val ≠ npix) :
    exec .enc s = .next (s.answer (responseWord .length 0)) :=
  (if_pos h).trans (raise_eq .length s)

theorem bbuf_of_exec_enc {s t : State} (h : s.icnt.val = npix) (ht : exec .enc s = .next t) : t.bbuf = s.encoded.bbuf := by
  obtain rfl := Host.Outcome.next.inj ((exec_enc_of_full h).symm.trans ht)
  exact State.answer_bbuf ..

theorem byte_of_exec_enc {s t : State} (h : s.icnt.val = npix) (ht : exec .enc s = .next t) {n : Nat} (hn : n < 384) :
    t.byte n = packByte (streamBit s) n := by
  rw [State.byte, bbuf_of_exec_enc h ht]
  exact State.encoded_byte hn

/-! ### The stream, plane by plane -/

/-- "Concatenate the 3 planes in order" (R122): plane k starts at stream bit 1024k. -/
theorem streamBit_plane (s : State) (k : Nat) {i : Nat} (h : i < 1024) :
    streamBit s (1024 * k + i) = (s.cfg.bits (s.index i)).char k := by
  rw [streamBit, Nat.mul_add_mod, Nat.mod_eq_of_lt h, Nat.mul_add_div (by decide), Nat.div_eq_of_lt h, Nat.add_zero]

/-- Byte m of plane k holds the bits of pixels 8m to 8m + 7 (R124). -/
theorem streamBit_planeByte (s : State) {k m u : Nat} (hm : m < 128) (hu : u < 8) :
    streamBit s (8 * (128 * k + m) + u) = (s.cfg.bits (s.index (8 * m + u))).char k := by
  have hj : 8 * (128 * k + m) + u = 1024 * k + (8 * m + u) := by omega
  rw [hj, streamBit_plane s k (by omega)]

/-- ENC reads PALETTE_BITS and the 1024 indices only (R125 (a)). -/
theorem streamBit_congr_paletteBits {s s' : State} (hbits : s'.cfg.paletteBits = s.cfg.paletteBits)
    (hindex : ∀ i < 1024, s'.index i = s.index i) : streamBit s' = streamBit s := by
  funext j
  rw [streamBit, streamBit, Config.bits, Config.bits, hbits, hindex _ (Nat.mod_lt j (by decide))]

/-! ### The bytes of a frame of one colour -/

/-- A frame of one colour whose characters are all `v` packs to bytes whose bits are all `v`. -/
theorem packByte_of_uniformFrame {s : State} {p : PaletteIndex} {v : Bool} (hframe : ∀ i < 1024, s.index i = p)
    (hchars : ∀ k < 3, (s.cfg.bits p).char k = v) {byte : Byte} (hbyte : ∀ u < 8, byte.getLsbD u = v) {n : Nat}
    (hn : n < 384) : packByte (streamBit s) n = byte := by
  apply packByte_of_bits
  intro u hu
  have hplane : (8 * n + u) / 1024 < 3 := by omega
  rw [streamBit, hframe _ (Nat.mod_lt _ (by decide)), hchars _ hplane, hbyte _ (by omega)]

end Sys2Proof.Machine

namespace Sys2Proof.Proofs

open Sys2Proof Sys2Proof.Machine

/-- Settles O12: ENC's next state is `State.encoded`, whose byte n packs stream bits 8n to 8n + 7, and opcode 0x4 decodes
as ENC. -/
theorem encPacksThePlanes : Obligations.EncPacksThePlanes := by
  obtain ⟨-, -, -, -, hdecodes, -⟩ := eachFormatGivesItsOperands
  refine ⟨fun s h => ⟨_, exec_enc_of_full h, fun n hn u hu => ?_, fun n hn => ?_, rfl, ?_, rfl, fun _ => rfl, rfl,
    fun _ => rfl, rfl, rfl⟩, fun s h => ?_, .of_decodesAs hdecodes⟩
  · rw [State.answer_byte, State.encoded_byte hn, packByte_getLsbD _ n hu, streamBit]
  · rw [State.answer_bbuf, State.encoded_bbuf, Memory.lookup_fill, if_neg (Nat.not_lt.mpr hn)]
  · rw [State.answer_responses, State.encoded_responses, responseWord_ok_zero]
  · rw [exec_enc_of_not_full h, responseWord_length, State.answer]

/-- Settles O13: byte 128k + m packs the plane-k bits of pixels 8m to 8m + 7, and pixel (x, y) is pixel 16x + y. -/
theorem encPlacesEachPixel : Obligations.EncPlacesEachPixel := by
  intro s t h ht
  have hpixel : ∀ i < 1024, ∀ k < 3,
      (t.byte (128 * k + i / 8)).getLsbD (7 - i % 8) = (s.cfg.bits (s.index i)).char k := by
    intro i hi k hk
    have hu : i % 8 < 8 := Nat.mod_lt i (by decide)
    rw [byte_of_exec_enc h ht (by omega), packByte_getLsbD _ _ hu, streamBit_planeByte s (by omega) hu, Nat.div_add_mod]
  refine ⟨hpixel, fun m hm k hk => ?_, fun x hx y hy k hk => ?_⟩
  · rw [byte_of_exec_enc h ht (by omega), packByte_toNat]
    congr 1
    apply List.map_congr_left
    intro u hu
    rw [streamBit_planeByte s hm (List.mem_range.mp hu)]
  · have hbyte : 128 * k + 2 * x + y / 8 = 128 * k + (16 * x + y) / 8 := by omega
    have hbit : y % 8 = (16 * x + y) % 8 := by omega
    rw [hbyte, hbit, pixelIndex]
    exact hpixel (16 * x + y) (by omega) k hk

/-- Settles O14: every character of black's bit-string is 0 and of white's is 1, and the stream reads only the indices and
PALETTE_BITS. -/
theorem encBlackWhiteAndDeterminism : Obligations.EncBlackWhiteAndDeterminism := by
  refine ⟨fun s t hs h ht => ?_, fun s s' t t' h h' hbits hindex ht ht' => ?_⟩
  · obtain ⟨-, -, hfixed, -⟩ := hs
    obtain ⟨hblack, hwhite⟩ := s.cfg.blackWhiteFixed_iff.mp hfixed
    refine ⟨fun hframe n hn => ?_, fun hframe n hn => ?_⟩ <;> rw [byte_of_exec_enc h ht hn]
    · exact packByte_of_uniformFrame hframe hblack (by decide) hn
    · exact packByte_of_uniformFrame hframe hwhite (by decide) hn
  · rw [bbuf_of_exec_enc h ht, bbuf_of_exec_enc h' ht', State.encoded_bbuf, State.encoded_bbuf,
      streamBit_congr_paletteBits hbits hindex]

end Sys2Proof.Proofs

/-! DEC and RECON: the bits of each byte, the index of each code, and the way back to ENC's frame
(42_bitplane_decode.md R140 to R152). -/

namespace Sys2Proof.Machine

/-! ### What DEC answers -/

theorem exec_dec_of_full {s : State} (h : s.bcnt.val = nbyte) :
    exec .dec s = .next (s.decoded.answer (responseWord .ok 0)) :=
  (if_neg (not_not.mpr h)).trans (respond_eq 0 s.decoded)

theorem exec_dec_of_not_full {s : State} (h : s.bcnt.val ≠ nbyte) :
    exec .dec s = .next (s.answer (responseWord .length 0)) :=
  (if_pos h).trans (raise_eq .length s)

theorem dbuf_of_exec_dec {s t : State} (h : s.bcnt.val = nbyte) (ht : exec .dec s = .next t) : t.dbuf = s.decoded.dbuf := by
  obtain rfl := Host.Outcome.next.inj ((exec_dec_of_full h).symm.trans ht)
  exact State.answer_dbuf ..

theorem bit_of_exec_dec {s t : State} (h : s.bcnt.val = nbyte) (ht : exec .dec s = .next t) {j : Nat} (hj : j < 3072) :
    t.bit j = extractedBit s j := by
  rw [State.bit, dbuf_of_exec_dec h ht]
  exact State.decoded_bitEntry hj

/-! ### The stream, byte by byte -/

/-- The stream of the bytes held: "stream bit j is bit `7 - (j mod 8)` of byte `j div 8`" (R142). -/
def byteStream (s : State) (j : Nat) : Bool := (s.byte (j / 8)).getLsbD (7 - j % 8)

theorem extractedBit_eq (s : State) (j : Nat) : extractedBit s j = BitVec.ofBool (byteStream s j) := rfl

/-- Chunk n of the stream is byte n, its most significant bit first. -/
theorem byteStream_chunk (s : State) (n : Nat) {u : Nat} (hu : u < 8) :
    byteStream s (8 * n + u) = (s.byte n).getLsbD (7 - u) := by
  rw [byteStream, Nat.mul_add_mod, Nat.mod_eq_of_lt hu, Nat.mul_add_div (by decide), Nat.div_eq_of_lt hu, Nat.add_zero]

/-- Packing the stream of the bytes gives each byte back (R144 (a)). -/
theorem packByte_byteStream (s : State) (n : Nat) : packByte (byteStream s) n = s.byte n :=
  packByte_of_bits fun _ => byteStream_chunk s n

/-- The stream of bytes that pack a stream is that stream. -/
theorem byteStream_of_packed {s : State} {stream : Nat → Bool} (h : ∀ n < 384, s.byte n = packByte stream n)
    {j : Nat} (hj : j < 3072) : byteStream s j = stream j := by
  rw [byteStream, h _ (by omega), packByte_getLsbD _ _ (Nat.mod_lt j (by decide)), Nat.div_add_mod]

theorem bcnt_of_exec_enc {s t : State} (h : s.icnt.val = npix) (ht : exec .enc s = .next t) : t.bcnt.val = nbyte := by
  obtain rfl := Host.Outcome.next.inj ((exec_enc_of_full h).symm.trans ht)
  exact congrArg Fin.val s.encoded_bcnt

/-- DEC after ENC, with the bytes and their count kept between them, gives ENC's stream (R144 (b)). -/
theorem bit_of_exec_enc_dec {s t u v : State} (h : s.icnt.val = npix) (ht : exec .enc s = .next t)
    (hbytes : u.bbuf = t.bbuf) (hu : u.bcnt.val = nbyte) (hv : exec .dec u = .next v) {j : Nat} (hj : j < 3072) :
    v.bit j = BitVec.ofBool (streamBit s j) := by
  have hpacked : ∀ n < 384, u.byte n = packByte (streamBit s) n := by
    intro n hn
    rw [State.byte, hbytes]
    exact byte_of_exec_enc h ht hn
  rw [bit_of_exec_dec hu hv hj, extractedBit_eq, byteStream_of_packed hpacked hj]

theorem Memory.fill_congr {w size : Nat} {f g : Nat → BitVec w} (h : ∀ a < size, f a = g a) :
    Memory.fill size f = Memory.fill size g := by
  rw [Memory.fill, Memory.fill]
  apply List.map_congr_left
  intro a ha
  rw [h a (List.mem_range.mp ha)]

/-- DEC's bits depend on the 384 bytes only, and on no palette table (R144 (c)). -/
theorem decoded_dbuf_congr {s s' : State} (h : ∀ n < 384, s'.byte n = s.byte n) : s'.decoded.dbuf = s.decoded.dbuf := by
  rw [State.decoded_dbuf, State.decoded_dbuf]
  apply Memory.fill_congr
  intro j hj
  have hbyte : j / 8 < 384 := Nat.div_lt_of_lt_mul hj
  rw [extractedBit, extractedBit, h _ hbyte]

/-! ### What RECON answers -/

theorem exec_recon_of_held {s : State} (hpresent : s.cfg.hasRecon = true) (h : s.dvalid = true) :
    exec .recon s = .next (s.reconstructed.answer (responseWord .ok 0)) := by
  rw [exec, execRecon, hpresent, h]
  exact respond_eq 0 s.reconstructed

theorem exec_recon_of_not_held {s : State} (hpresent : s.cfg.hasRecon = true) (h : s.dvalid = false) :
    exec .recon s = .next (s.answer (responseWord .noData 0)) := by
  rw [exec, execRecon, hpresent, h]
  exact raise_eq .noData s

/-! ### The code of a pixel -/

/-- A code is its three characters, each a bit, the first the leftmost (R11). -/
theorem append_eq_bitString_iff (b0 b1 b2 : BitVec 1) (code : BitString) :
    b0 ++ b1 ++ b2 = code ↔
      BitVec.ofBool (code.char 0) = b0 ∧ BitVec.ofBool (code.char 1) = b1 ∧ BitVec.ofBool (code.char 2) = b2 := by
  revert b0 b1 b2 code
  decide

/-- "The code of pixel i takes its plane-k character from stream bit `1024*k + i`" (R151). -/
theorem pixelCode_eq_iff (s : State) (i : Nat) (code : BitString) :
    pixelCode s i = code ↔ ∀ k < 3, BitVec.ofBool (code.char k) = s.bit (1024 * k + i) := by
  rw [pixelCode, append_eq_bitString_iff]
  simp only [npix, Nat.forall_lt_succ_left, Nat.not_lt_zero, false_imp_iff, implies_true, and_true, Nat.mul_zero,
    Nat.zero_add, Nat.mul_one, Nat.reduceAdd, Nat.reduceMul]

theorem indexOfCode_eq_iff {c : Config} (h : c.DistinctBits) {code : BitString} {p : PaletteIndex} :
    indexOfCode c code = p ↔ code = c.bits p := by
  constructor
  · rintro rfl
    exact (bits_indexOfCode h code).symm
  · rintro rfl
    exact indexOfCode_bits h p

/-- The index RECON writes is the only one whose bit-string has the pixel's three bits (R150, R151). -/
theorem reconstructed_index_eq_iff {s : State} (h : s.cfg.DistinctBits) {i : Nat} (hi : i < 1024) (p : PaletteIndex) :
    s.reconstructed.index i = p ↔ ∀ k < 3, BitVec.ofBool ((s.cfg.bits p).char k) = s.bit (1024 * k + i) := by
  rw [State.reconstructed_indexEntry hi, indexOfCode_eq_iff h, pixelCode_eq_iff]

end Sys2Proof.Machine

namespace Sys2Proof.Proofs

open Sys2Proof Sys2Proof.Machine

/-- Settles O15: DEC's next state is `State.decoded`, whose bit j is `extractedBit`, and opcode 0x5 decodes as DEC. -/
theorem decExtractsTheBits : Obligations.DecExtractsTheBits := by
  obtain ⟨-, -, -, -, -, hdecodes, -⟩ := eachFormatGivesItsOperands
  refine ⟨fun s h => ⟨_, exec_dec_of_full h, fun j hj => ?_, fun j hj => ?_, rfl, ?_, rfl, fun _ => rfl, rfl,
    fun _ => rfl, rfl, rfl⟩, fun s h => ?_, .of_decodesAs hdecodes⟩
  · rw [State.answer_bit, State.decoded_bitEntry hj, extractedBit]
  · rw [State.answer_dbuf, State.decoded_dbuf, Memory.lookup_fill, if_neg (Nat.not_lt.mpr hj)]
  · rw [State.answer_responses, State.decoded_responses, responseWord_ok_zero]
  · rw [exec_dec_of_not_full h, responseWord_length, State.answer]

/-- Settles O16: DEC's bits are the stream of the bytes, so packing them gives the bytes, and unpacking ENC's bytes gives
ENC's stream. -/
theorem decRoundTrips : Obligations.DecRoundTrips := by
  refine ⟨fun s t h ht n hn => ?_, fun s t u v h ht hbytes hcount hv j hj => ?_, fun s s' t t' h h' hbytes ht ht' => ?_⟩
  · rw [← packByte_byteStream s n, packByte_toNat]
    congr 1
    apply List.map_congr_left
    intro u hu
    have hlt : u < 8 := List.mem_range.mp hu
    rw [bit_of_exec_dec h ht (by omega), extractedBit_eq, BitVec.toNat_ofBool]
  · have hu : u.bcnt.val = nbyte := hcount ▸ bcnt_of_exec_enc h ht
    rw [bit_of_exec_enc_dec h ht hbytes hu hv hj, streamBit]
  · rw [dbuf_of_exec_dec h ht, dbuf_of_exec_dec h' ht', decoded_dbuf_congr hbytes]

/-- Settles O17: with distinct bit-strings each code names exactly one index, RECON's next state is `State.reconstructed`,
and opcode 0x6 decodes as RECON. -/
theorem reconRebuildsTheIndices : Obligations.ReconRebuildsTheIndices := by
  obtain ⟨-, -, -, -, -, -, hdecodes, -⟩ := eachFormatGivesItsOperands
  refine ⟨fun s hs hpresent hd => ⟨_, exec_recon_of_held hpresent hd, fun i hi p => ?_, fun i hi => ?_, rfl, ?_, rfl,
    fun _ => rfl, rfl, fun _ => rfl, rfl, rfl⟩, fun s habsent => ?_, fun s hpresent hd => ?_, .of_decodesAs hdecodes⟩
  · obtain ⟨-, -, -, hdistinct⟩ := hs
    rw [State.answer_index, ← reconstructed_index_eq_iff (hdistinct hpresent) hi, eq_comm]
  · rw [State.answer_ibuf, State.reconstructed_ibuf, Memory.lookup_fill, if_neg (Nat.not_lt.mpr hi)]
  · rw [State.answer_responses, State.reconstructed_responses, responseWord_ok_zero]
  · rw [exec_recon_of_absent habsent, responseWord_illegal, State.answer]
  · rw [exec_recon_of_not_held hpresent hd, responseWord_noData, State.answer]

/-- Settles O18: RECON meets ENC's stream, whose bits 1024k + i are the characters of index i's own bit-string. -/
theorem encDecReconIsTheIdentity : Obligations.EncDecReconIsTheIdentity := by
  intro s hs hpresent h
  obtain ⟨-, -, -, hdistinct⟩ := hs
  have ht := exec_enc_of_full h
  refine ⟨_, ht, fun u hucfg hubytes hucount => ?_⟩
  have hu : u.bcnt.val = nbyte := hucount ▸ bcnt_of_exec_enc h ht
  have hv := exec_dec_of_full hu
  refine ⟨_, hv, fun w hwcfg hwbits hwvalid => ?_⟩
  have hw : w.cfg = s.cfg := hwcfg.trans hucfg
  refine ⟨_, exec_recon_of_held (hw ▸ hpresent) hwvalid, rfl, fun i hi => ?_⟩
  rw [State.answer_index, reconstructed_index_eq_iff (hw ▸ hdistinct hpresent) hi]
  intro k hk
  rw [hw, State.bit, hwbits, ← State.bit, bit_of_exec_enc_dec h ht hubytes hu hv (by omega), streamBit_plane s k hi]

end Sys2Proof.Proofs

/-! The host's commands on the counters, the buffers and the flag, and the host's pixel order
(43_host_interface.md R160 to R175, R180). -/

namespace Sys2Proof.Machine

/-! ### What NOP, CLR and the pushes answer -/

theorem exec_nop (s : State) : exec .nop s = .next (s.answer 0x00000000) := by
  rw [exec, execNop, respond_eq, responseWord_ok_zero]

theorem exec_pushi (idx : PaletteIndex) (s : State) : exec (.pushi idx) s = .next ((s.pushIndex idx).answer 0) := by
  rw [exec, execPushi, respond_eq, responseWord_ok_zero]

theorem exec_pushb (byte : Byte) (s : State) : exec (.pushb byte) s = .next ((s.pushByte byte).answer 0) := by
  rw [exec, execPushb, respond_eq, responseWord_ok_zero]

theorem exec_clr (mask : BitVec 3) (s : State) : exec (.clr mask) s = .next ((s.clear mask).answer 0) := by
  rw [exec, execClr, respond_eq, responseWord_ok_zero]

/-- A write that is dropped where there is no room: the entry written, and every other as it was (R161, R162). -/
theorem Memory.lookup_write_if_room {w : Nat} (room : Prop) [Decidable room] (m : Memory w) (a : Nat) (v : BitVec w)
    (a' : Nat) : Memory.lookup (if room then Memory.write m a v else m) a'
      = if room ∧ a' = a then some v else Memory.lookup m a' := by
  by_cases hroom : room
  · by_cases ha : a' = a
    · rw [if_pos hroom, if_pos ⟨hroom, ha⟩, ha, Memory.lookup_write_self]
    · rw [if_pos hroom, if_neg fun h => ha h.2, Memory.lookup_write_of_ne m v ha]
  · rw [if_neg hroom, if_neg fun h => hroom h.1]

/-! ### What the reads answer -/

/-- The response that carries one entry of a buffer, zero-extended, with ERR = OK (R67). -/
theorem responseWord_ok_append {m n : Nat} (v : BitVec n) (hword : m + n = 32) (hdata : n ≤ 28) :
    responseWord .ok (v.setWidth 28) = (0#m ++ v).cast hword := by
  apply BitVec.eq_of_toNat_eq
  rw [responseWord_ok_setWidth v hdata, BitVec.toNat_cast, toNat_append_eq_add, BitVec.toNat_zero, Nat.zero_mul,
    Nat.zero_add, BitVec.toNat_setWidth_of_le (by omega)]

theorem exec_rdi_of_written {a : BitVec 10} {s : State} (h : a.toNat < min s.icnt.val npix) :
    exec (.rdi a) s = .next (s.answer (0#29 ++ s.index a.toNat)) := by
  rw [exec, execRdi, if_pos (State.indexWritten_iff.mpr h), respond_eq, responseWord_ok_paletteIndex]

theorem exec_rdi_of_not_written {a : BitVec 10} {s : State} (h : min s.icnt.val npix ≤ a.toNat) :
    exec (.rdi a) s = .next (s.answer 0x40000000) := by
  rw [exec, execRdi, if_neg (mt State.indexWritten_iff.mp (Nat.not_lt.mpr h)), raise_eq, responseWord_noData]

theorem exec_rdb_of_out_of_range {a : BitVec 9} {s : State} (h : nbyte ≤ a.toNat) :
    exec (.rdb a) s = .next (s.answer 0x30000000) := by
  have hrange : byteInRange a.toNat = false := decide_eq_false (Nat.not_lt.mpr h)
  rw [exec, execRdb, if_pos hrange, raise_eq, responseWord_range]

theorem exec_rdb_of_written {a : BitVec 9} {s : State} (h : a.toNat < min s.bcnt.val nbyte) :
    exec (.rdb a) s = .next (s.answer (0#24 ++ s.byte a.toNat)) := by
  have hrange : byteInRange a.toNat = true := byteInRange_iff.mpr (Nat.lt_of_lt_of_le h (Nat.min_le_right _ _))
  rw [exec, execRdb, if_neg (ne_false_of_eq_true hrange), if_pos (State.byteWritten_iff.mpr h), respond_eq,
    responseWord_ok_append (s.byte a.toNat) (m := 24) rfl (by decide), BitVec.cast_eq]

theorem exec_rdb_of_not_written {a : BitVec 9} {s : State} (hrange : a.toNat < nbyte)
    (h : min s.bcnt.val nbyte ≤ a.toNat) : exec (.rdb a) s = .next (s.answer 0x40000000) := by
  rw [exec, execRdb, if_neg (ne_false_of_eq_true (byteInRange_iff.mpr hrange)),
    if_neg (mt State.byteWritten_iff.mp (Nat.not_lt.mpr h)), raise_eq, responseWord_noData]

theorem exec_rdd_of_out_of_range {a : BitVec 12} {s : State} (h : nbit ≤ a.toNat) :
    exec (.rdd a) s = .next (s.answer 0x30000000) := by
  have hrange : bitInRange a.toNat = false := decide_eq_false (Nat.not_lt.mpr h)
  rw [exec, execRdd, if_pos hrange, raise_eq, responseWord_range]

theorem exec_rdd_of_held {a : BitVec 12} {s : State} (hrange : a.toNat < nbit) (h : s.dvalid = true) :
    exec (.rdd a) s = .next (s.answer (0#31 ++ s.bit a.toNat)) := by
  rw [exec, execRdd, if_neg (ne_false_of_eq_true (bitInRange_iff.mpr hrange)), if_neg (ne_false_of_eq_true h),
    respond_eq, responseWord_ok_append (s.bit a.toNat) (m := 31) rfl (by decide), BitVec.cast_eq]

theorem exec_rdd_of_not_held {a : BitVec 12} {s : State} (hrange : a.toNat < nbit) (h : s.dvalid = false) :
    exec (.rdd a) s = .next (s.answer 0x40000000) := by
  rw [exec, execRdd, if_neg (ne_false_of_eq_true (bitInRange_iff.mpr hrange)), if_pos h, raise_eq, responseWord_noData]

/-! ### The status word -/

theorem refModeBit_toNat (mode : RefMode) : (refModeBit mode).toNat = (decide (mode = .replicated)).toNat := by
  cases mode <;> rfl

/-- RDSTAT's response in numbers: each field of R31's layout times the weight of its lowest bit. -/
theorem responseWord_statusWord_toNat (s : State) :
    (responseWord .ok (statusWord s)).toNat
      = s.icnt.val + s.bcnt.val * 2 ^ 11 + s.dvalid.toNat * 2 ^ 22 + s.cfg.hasRecon.toNat * 2 ^ 23
        + (decide (s.cfg.refMode = .replicated)).toNat * 2 ^ 24 := by
  have hicnt : s.icnt.val % 2 ^ 11 = s.icnt.val := Nat.mod_eq_of_lt s.icnt.isLt
  have hbcnt : s.bcnt.val % 2 ^ 11 = s.bcnt.val := Nat.mod_eq_of_lt s.bcnt.isLt
  have hok : ErrorCode.ok.code.toNat = 0 := rfl
  simp only [responseWord_toNat, hok, statusWord, toNat_append_eq_add, refModeBit_toNat, BitVec.toNat_ofBool,
    BitVec.toNat_ofNat, hicnt, hbcnt]
  omega

theorem getLsbD_eq_of_toNat {n : Nat} {v : BitVec n} {i : Nat} {b : Bool} (h : v.toNat / 2 ^ i % 2 = b.toNat) :
    v.getLsbD i = b := by
  rw [← BitVec.testBit_toNat, Nat.testBit_eq_decide_div_mod_eq, h]
  cases b <;> rfl

end Sys2Proof.Machine

namespace Sys2Proof.Proofs

open Sys2Proof Sys2Proof.Machine

/-- Settles O19: NOP commits no write, and opcode 0x0 has no operand bits, so only the all-zero word decodes as NOP. -/
theorem nopDoesNothing : Obligations.NopDoesNothing := by
  obtain ⟨hdecodes, -⟩ := eachFormatGivesItsOperands
  exact ⟨exec_nop, .of_decodesAs hdecodes, by decide⟩

/-- Settles O20: PUSHI's next state is `State.pushIndex`, whose one write is at the counter and is dropped where there is
no room, and opcode 0x2 decodes as PUSHI. -/
theorem pushiAppendsOneIndex : Obligations.PushiAppendsOneIndex := by
  obtain ⟨-, -, hdecodes, -⟩ := eachFormatGivesItsOperands
  refine ⟨fun idx s => ⟨_, exec_pushi idx s, fun hroom => ?_, fun a ha => ?_, bump_val s.icnt, rfl, rfl,
    fun _ => rfl, rfl, fun _ => rfl, rfl, rfl⟩, .of_decodesAs hdecodes⟩ <;>
    rw [State.answer_ibuf, State.pushIndex_ibuf, Memory.lookup_write_if_room]
  · exact if_pos ⟨hroom, rfl⟩
  · exact if_neg ha

/-- Settles O21: PUSHB's next state is `State.pushByte`, whose one write is at the counter and is dropped where there is
no room, and opcode 0x3 decodes as PUSHB. -/
theorem pushbAppendsOneByte : Obligations.PushbAppendsOneByte := by
  obtain ⟨-, -, -, hdecodes, -⟩ := eachFormatGivesItsOperands
  refine ⟨fun byte s => ⟨_, exec_pushb byte s, fun hroom => ?_, fun a ha => ?_, bump_val s.bcnt, rfl, rfl,
    fun _ => rfl, rfl, fun _ => rfl, rfl, rfl⟩, .of_decodesAs hdecodes⟩ <;>
    rw [State.answer_bbuf, State.pushByte_bbuf, Memory.lookup_write_if_room]
  · exact if_pos ⟨hroom, rfl⟩
  · exact if_neg ha

/-- Settles O24: CLR's next state is `State.clear`, which writes no buffer; a count of 0 leaves no entry written and a
cleared DVALID no bit held, so the reads that follow find nothing. -/
theorem clrClearsTheSelected : Obligations.ClrClearsTheSelected := by
  obtain ⟨-, -, -, -, -, -, -, hdecodes, -⟩ := eachFormatGivesItsOperands
  refine ⟨fun mask s => ⟨_, exec_clr mask s, rfl, rfl, rfl, rfl, rfl, fun _ => rfl, fun _ => rfl, fun _ => rfl, rfl,
    fun hmask a => exec_rdi_of_not_written ?_, fun hmask a ha => exec_rdb_of_not_written ha ?_,
    fun hmask a ha => exec_rdd_of_not_held ha ?_⟩, .of_decodesAs hdecodes⟩
  · rw [State.answer_icnt, State.clear_icnt, if_pos hmask]
    exact Nat.zero_le _
  · rw [State.answer_bcnt, State.clear_bcnt, if_pos hmask]
    exact Nat.zero_le _
  · rw [State.answer_dvalid, State.clear_dvalid, if_pos hmask]

/-- Settles O25: RDI has one check, whether the entry is written, and opcode 0x8 decodes as RDI. -/
theorem rdiReadsOneIndex : Obligations.RdiReadsOneIndex := by
  obtain ⟨-, -, -, -, -, -, -, -, hdecodes, -⟩ := eachFormatGivesItsOperands
  exact ⟨fun _ _ => ⟨exec_rdi_of_written, exec_rdi_of_not_written⟩, .of_decodesAs hdecodes⟩

/-- Settles O26: RDB checks the range and then whether the entry is written, and opcode 0x9 decodes as RDB. -/
theorem rdbReadsOneByte : Obligations.RdbReadsOneByte := by
  obtain ⟨-, -, -, -, -, -, -, -, -, hdecodes, -⟩ := eachFormatGivesItsOperands
  exact ⟨fun _ _ => ⟨exec_rdb_of_written, exec_rdb_of_out_of_range, exec_rdb_of_not_written⟩, .of_decodesAs hdecodes⟩

/-- Settles O27: RDD checks the range and then DVALID, and opcode 0xA decodes as RDD. -/
theorem rddReadsOneBit : Obligations.RddReadsOneBit := by
  obtain ⟨-, -, -, -, -, -, -, -, -, -, hdecodes, -⟩ := eachFormatGivesItsOperands
  exact ⟨fun _ _ => ⟨exec_rdd_of_held, exec_rdd_of_out_of_range, exec_rdd_of_not_held⟩, .of_decodesAs hdecodes⟩

/-- Settles O28: the response's number is the sum of its fields at their weights, each field below the next one's weight,
and opcode 0xB decodes as RDSTAT. -/
theorem rdstatReadsTheStatusWord : Obligations.RdstatReadsTheStatusWord := by
  obtain ⟨-, -, -, -, -, -, -, -, -, -, -, hdecodes, -⟩ := eachFormatGivesItsOperands
  refine ⟨fun s => ⟨_, rfl, ?_⟩, .of_decodesAs hdecodes⟩
  have hnumber := responseWord_statusWord_toNat s
  have hicnt := s.icnt.isLt
  have hbcnt := s.bcnt.isLt
  have hdvalid := s.dvalid.toNat_lt
  have hrecon := s.cfg.hasRecon.toNat_lt
  have hmode := (decide (s.cfg.refMode = .replicated)).toNat_lt
  refine ⟨(field_toNat _ 0 11).trans ?_, (field_toNat _ 11 11).trans ?_, getLsbD_eq_of_toNat ?_, getLsbD_eq_of_toNat ?_,
    getLsbD_eq_of_toNat ?_, field_eq_of_toNat (.trans ?_ BitVec.toNat_zero.symm)⟩
  all_goals rw [hnumber]; omega

/-- Settles O29: a column has 16 rows, so 16x + y has quotient x and remainder y, and the grid order is the index order. -/
theorem pixelOrderIsColumnMajor : Obligations.PixelOrderIsColumnMajor := by
  simp only [Obligations.PixelOrderIsColumnMajor, pixelIndex, pixelColumn, pixelRow]
  refine ⟨fun i hi => ?_, fun x hx y hy => ?_, ?_⟩
  · omega
  · omega
  · have hindex : (fun i => 16 * (i / 16) + i % 16) = id := funext fun i => Nat.div_add_mod i 16
    rw [gridOrder_eq, List.map_map]
    exact (congrArg (List.map · (List.range 1024)) hindex).trans (List.map_id _)

end Sys2Proof.Proofs

/-! Which word raises which error, and that an error leaves no trace (60_exceptions.md R200 to R203). -/

namespace Sys2Proof.Machine

/-! ### The error of a command -/

/-- The error that R200 and R203 give a word read as `read` in state `s`: "the first in this order" of the checks. -/
def errorOf (s : State) : Option Instr → ErrorCode
  | none => .illegal
  | some .enc => if s.icnt.val ≠ npix then .length else .ok
  | some .dec => if s.bcnt.val ≠ nbyte then .length else .ok
  | some .recon => if s.cfg.hasRecon = false then .illegal else if s.dvalid = false then .noData else .ok
  | some (.rdi a) => if s.indexWritten a.toNat then .ok else .noData
  | some (.rdb a) =>
    if byteInRange a.toNat = false then .range else if s.byteWritten a.toNat then .ok else .noData
  | some (.rdd a) => if bitInRange a.toNat = false then .range else if s.dvalid = false then .noData else .ok
  | some _ => .ok

/-- The outcome adds one response to those of `s`, with ERR = `e` and with DATA = 0 on an error (R67). -/
def AnswersWith (s : State) (e : ErrorCode) (r : Result) : Prop :=
  ∃ t data, r = .next t ∧ t.responses = s.responses ++ [responseWord e data] ∧ (e ≠ .ok → data = 0)

theorem AnswersWith.respond {s u : State} (h : u.responses = s.responses) (data : ResponseData) :
    AnswersWith s .ok (Machine.respond data u) :=
  ⟨u.answer (responseWord .ok data), data, rfl, by rw [State.answer_responses, h], absurd rfl⟩

theorem AnswersWith.raise (e : ErrorCode) (s : State) : AnswersWith s e (Machine.raise e s) :=
  ⟨s.answer (responseWord e 0), 0, rfl, s.answer_responses _, fun _ => rfl⟩

theorem AnswersWith.ite {s : State} {c : Prop} [Decidable c] {e e' : ErrorCode} {r r' : Result}
    (h : AnswersWith s e r) (h' : AnswersWith s e' r') : AnswersWith s (if c then e else e') (if c then r else r') := by
  split
  · exact h
  · exact h'

/-- Check by check, a command answers the error R200 gives it. -/
theorem exec_answersWith (i : Instr) (s : State) : AnswersWith s (errorOf s (some i)) (exec i s) := by
  cases i with
  | enc => exact .ite (.raise .length s) (.respond s.encoded_responses 0)
  | dec => exact .ite (.raise .length s) (.respond s.decoded_responses 0)
  | recon => exact .ite (.raise .illegal s) (.ite (.raise .noData s) (.respond s.reconstructed_responses 0))
  | rdi a => exact .ite (.respond rfl _) (.raise .noData s)
  | rdb a => exact .ite (.raise .range s) (.ite (.respond rfl _) (.raise .noData s))
  | rdd a => exact .ite (.raise .range s) (.ite (.raise .noData s) (.respond rfl _))
  | nop => exact .respond rfl 0
  | quant r g b => exact .respond rfl _
  | pushi idx => exact .respond (s.pushIndex_responses idx) 0
  | pushb byte => exact .respond (s.pushByte_responses byte) 0
  | clr mask => exact .respond (s.clear_responses mask) 0
  | rdstat => exact .respond rfl _

theorem performWord_answersWith (w : Word) (s : State) : AnswersWith s (errorOf s (decode w)) (performWord w s) := by
  cases h : decode w with
  | none => rw [performWord_of_undecoded h]; exact .raise .illegal s
  | some i => rw [performWord_of_decode h]; exact exec_answersWith i s

/-! ### A failed check -/

theorem byteInRange_eq_false_iff {a : Nat} : byteInRange a = false ↔ nbyte ≤ a := by
  rw [← Bool.not_eq_true, byteInRange_iff, Nat.not_lt]

theorem bitInRange_eq_false_iff {a : Nat} : bitInRange a = false ↔ nbit ≤ a := by
  rw [← Bool.not_eq_true, bitInRange_iff, Nat.not_lt]

theorem State.indexWritten_eq_false_iff {s : State} {a : Nat} : s.indexWritten a = false ↔ min s.icnt.val npix ≤ a := by
  rw [← Bool.not_eq_true, State.indexWritten_iff, Nat.not_lt]

theorem State.byteWritten_eq_false_iff {s : State} {a : Nat} : s.byteWritten a = false ↔ min s.bcnt.val nbyte ≤ a := by
  rw [← Bool.not_eq_true, State.byteWritten_iff, Nat.not_lt]

/-! ### The causes of each error

`errorOf` takes a command's checks in R203's order, so by `ite_eq_iff` a code is answered where its check fails and every
check before it passes. -/

theorem errorOf_eq_illegal_iff (s : State) (read : Option Instr) :
    errorOf s read = .illegal ↔ read = none ∨ (read = some .recon ∧ s.cfg.hasRecon = false) := by
  match read with
  | none => simp [errorOf]
  | some i => cases i <;> simp [errorOf, ite_eq_iff]

theorem errorOf_eq_length_iff (s : State) (read : Option Instr) :
    errorOf s read = .length ↔ (read = some .enc ∧ s.icnt.val ≠ npix) ∨ (read = some .dec ∧ s.bcnt.val ≠ nbyte) := by
  match read with
  | none => simp [errorOf]
  | some i =>
    cases i with
    | enc | dec => simp [errorOf]
    | _ => simp [errorOf, ite_eq_iff]

theorem errorOf_eq_range_iff (s : State) (read : Option Instr) :
    errorOf s read = .range ↔
      (∃ a, read = some (.rdb a) ∧ nbyte ≤ a.toNat) ∨ ∃ a, read = some (.rdd a) ∧ nbit ≤ a.toNat := by
  match read with
  | none => simp [errorOf]
  | some i =>
    cases i with
    | rdb a => simp [errorOf, ite_eq_iff, byteInRange_eq_false_iff]
    | rdd a => simp [errorOf, ite_eq_iff, bitInRange_eq_false_iff]
    | _ => simp [errorOf, ite_eq_iff]

theorem errorOf_eq_noData_iff (s : State) (read : Option Instr) :
    errorOf s read = .noData ↔
      (∃ a, read = some (.rdi a) ∧ min s.icnt.val npix ≤ a.toNat)
      ∨ (∃ a, read = some (.rdb a) ∧ a.toNat < nbyte ∧ min s.bcnt.val nbyte ≤ a.toNat)
      ∨ (∃ a, read = some (.rdd a) ∧ a.toNat < nbit ∧ s.dvalid = false)
      ∨ (read = some .recon ∧ s.cfg.hasRecon = true ∧ s.dvalid = false) := by
  match read with
  | none => simp [errorOf]
  | some i =>
    cases i with
    | rdi a => simp [errorOf, State.indexWritten_eq_false_iff]
    | rdb a => simp [errorOf, ite_eq_iff, byteInRange_eq_false_iff, State.byteWritten_eq_false_iff]
    | rdd a => simp [errorOf, ite_eq_iff, bitInRange_eq_false_iff]
    | _ => simp [errorOf, ite_eq_iff]

/-! ### The codes -/

theorem ErrorCode.code_inj {e e' : ErrorCode} : e.code = e'.code ↔ e = e' := by
  cases e <;> cases e' <;> decide

theorem ErrorCode.code_lt (e : ErrorCode) : e.code.toNat < 5 := by cases e <;> decide

/-! ### What an error leaves -/

/-- The one trace of an error is its response. -/
theorem eq_answer_of_error {w : Word} {s t : State} {resp : Word} (ht : performWord w s = .next t)
    (hresp : t.responses = s.responses ++ [resp]) (herr : resp.extractLsb' 28 4 ≠ 0) : t = s.answer resp := by
  obtain ⟨_, u, data, -, -, hok⟩ | ⟨e, -, hraise⟩ := performWord_cases w s
  · obtain rfl := Host.Outcome.next.inj (hok.symm.trans ht)
    obtain rfl := (List.append_singleton_inj.mp hresp).2
    exact absurd (responseWord_err .ok data) herr
  · obtain rfl := Host.Outcome.next.inj (hraise.symm.trans ht)
    obtain rfl := (List.append_singleton_inj.mp hresp).2
    rfl

/-- What a word, decoded or not, answers and does is the same whatever was answered before it (R201). -/
theorem performWord_setResponses (w : Word) (s : State) (before : List Word) :
    ∃ (u : State) (resp : Word), performWord w s = .next (u.answer resp) ∧ u.responses = s.responses ∧
      performWord w { s with responses := before } = .next (State.answer { u with responses := before } resp) := by
  cases h : decode w with
  | none => exact ⟨s, _, performWord_of_undecoded h s, rfl, performWord_of_undecoded h _⟩
  | some i =>
    rw [performWord_of_decode h, performWord_of_decode h]
    exact exec_setResponses i s before

end Sys2Proof.Machine

namespace Sys2Proof.Proofs

open Sys2Proof Sys2Proof.Machine

/-- Settles O33: a word's ERR is the code of `errorOf`, which takes each code on its causes only. -/
theorem eachErrorHasItsCommands : Obligations.EachErrorHasItsCommands := by
  intro w s
  obtain ⟨t, data, ht, hresp, hdata⟩ := performWord_answersWith w s
  refine ⟨t, _, ht, hresp, ?_⟩
  rw [responseWord_err, responseWord_data, decodeFor_eq_none_iff]
  exact ⟨ErrorCode.code_inj.trans (errorOf_eq_illegal_iff s _), ErrorCode.code_inj.trans (errorOf_eq_length_iff s _),
    ErrorCode.code_inj.trans (errorOf_eq_range_iff s _), ErrorCode.code_inj.trans (errorOf_eq_noData_iff s _),
    ErrorCode.code_lt _, fun herr => hdata (mt ErrorCode.code_inj.mpr herr)⟩

/-- Settles O34: an error's next state is the state it found with one more response, and no word reads the responses. -/
theorem errorsAreAtomicAndNotSticky : Obligations.ErrorsAreAtomicAndNotSticky := by
  intro w s t resp ht hresp herr
  obtain rfl := eq_answer_of_error ht hresp herr
  refine ⟨⟨rfl, rfl, rfl, rfl, rfl, rfl, rfl⟩, rfl, fun w' => ?_⟩
  obtain ⟨u, resp', hu, huresp, hv⟩ := performWord_setResponses w' s (s.responses ++ [resp])
  refine ⟨_, _, resp', hu, hv, ?_, rfl, rfl, rfl, rfl, rfl, rfl, rfl, rfl⟩
  rw [State.answer_responses, huresp]

/-- Settles O35: the decoder and RECON's own first check come before every other check, and RDB and RDD check the range
before they read a count or the flag. -/
theorem errorPriority : Obligations.ErrorPriority := by
  intro s
  refine ⟨fun w => (illegalWordsAnswerIllegal s w).2, fun a ha => ?_, fun a ha => ?_, ?_⟩
  · exact (issue_eq_exec (.rdb a) s).trans (exec_rdb_of_out_of_range ha)
  · exact (issue_eq_exec (.rdd a) s).trans (exec_rdd_of_out_of_range ha)
  · exact (decodeFor_eq_none_iff s.cfg _).mpr (.inl (by decide))

end Sys2Proof.Proofs

/-! A reset and CLR ALL give the host the same responses from then on (70_reset_and_hazards.md R221). -/

namespace Sys2Proof.Machine

/-! ### A word and the host's queues -/

/-- No command's effect is on the host's queues, which are not the block's (R29, R30). -/
theorem Effect.queues_eq {s u : State} {i : Instr} (h : Effect s i u) :
    u.inputs = s.inputs ∧ u.responses = s.responses := by
  cases h with
  | none => exact ⟨rfl, rfl⟩
  | pushi idx => exact ⟨s.pushIndex_inputs idx, s.pushIndex_responses idx⟩
  | pushb byte => exact ⟨s.pushByte_inputs byte, s.pushByte_responses byte⟩
  | enc => exact ⟨s.encoded_inputs, s.encoded_responses⟩
  | dec => exact ⟨s.decoded_inputs, s.decoded_responses⟩
  | recon => exact ⟨s.reconstructed_inputs, s.reconstructed_responses⟩
  | clr mask => exact ⟨s.clear_inputs mask, s.clear_responses mask⟩

theorem queues_eq_of_answer_eq {u v : State} {resp resp' : Word} (h : u.answer resp = v.answer resp') :
    u.inputs = v.inputs ∧ u.responses = v.responses := by
  have hresponses : u.responses ++ [resp] = v.responses ++ [resp'] := congrArg State.responses h
  exact ⟨(congrArg State.inputs h :), (List.append_singleton_inj.mp hresponses).1⟩

/-- A word answered with `resp` leaves the pending events, and `resp` is its only response. -/
theorem queues_of_performWord {w : Word} {s u : State} {resp : Word} (h : performWord w s = .next (u.answer resp)) :
    u.inputs = s.inputs ∧ u.responses = s.responses := by
  obtain ⟨_, v, _, -, heffect, hok⟩ | ⟨_, -, herr⟩ := performWord_cases w s
  · obtain ⟨hinputs, hresponses⟩ := heffect.queues_eq
    rw [← hinputs, ← hresponses]
    exact queues_eq_of_answer_eq (Host.Outcome.next.inj (h.symm.trans hok))
  · exact queues_eq_of_answer_eq (Host.Outcome.next.inj (h.symm.trans herr))

/-! ### Two blocks going on alike -/

/-- `s` has gone on to `s'` and `t` to `t'` with the same responses, and the host can tell apart neither the blocks `s'`
and `t'` nor what is pending. -/
structure GoOnAlike (s t s' t' : State) : Prop where
  block : HostIndistinguishable s' t'
  inputs : t'.inputs = s'.inputs
  responses : ∃ answers, s'.responses = s.responses ++ answers ∧ t'.responses = t.responses ++ answers

theorem GoOnAlike.refl {s t : State} (h : HostIndistinguishable s t) (hinputs : t.inputs = s.inputs) : GoOnAlike s t s t :=
  ⟨h, hinputs, [], (List.append_nil _).symm, (List.append_nil _).symm⟩

theorem GoOnAlike.trans {s t s' t' s'' t'' : State} (h : GoOnAlike s t s' t') (h' : GoOnAlike s' t' s'' t'') :
    GoOnAlike s t s'' t'' := by
  obtain ⟨answers, hs, ht⟩ := h.responses
  obtain ⟨answers', hs', ht'⟩ := h'.responses
  refine ⟨h'.block, h'.inputs, answers ++ answers', ?_, ?_⟩
  · rw [hs', hs, List.append_assoc]
  · rw [ht', ht, List.append_assoc]

/-- A word that is no command is answered alike too: with ILLEGAL, on every block (R65). -/
theorem HostIndistinguishable.performWord {s t : State} (h : HostIndistinguishable s t) (w : Word) :
    ∃ (u v : State) (resp : Word), Machine.performWord w s = .next (u.answer resp)
      ∧ Machine.performWord w t = .next (v.answer resp) ∧ HostIndistinguishable u v := by
  cases hw : decode w with
  | none => exact ⟨s, t, _, performWord_of_undecoded hw s, performWord_of_undecoded hw t, h⟩
  | some i =>
    rw [performWord_of_decode hw, performWord_of_decode hw]
    exact h.exec i

theorem HostIndistinguishable.afterReset {s t : State} (h : HostIndistinguishable s t) :
    HostIndistinguishable s.afterReset t.afterReset :=
  SameBlock.hostIndistinguishable ⟨h.cfg, rfl, rfl, rfl, rfl, rfl, rfl⟩

theorem HostIndistinguishable.takeEvent {s t : State} (h : HostIndistinguishable s t) (hinputs : t.inputs = s.inputs)
    (e : HostEvent) :
    ∃ s' t', Machine.takeEvent e s = .next s' ∧ Machine.takeEvent e t = .next t' ∧ GoOnAlike s t s' t' := by
  cases e with
  | reset => exact ⟨_, _, rfl, rfl, h.afterReset, hinputs, (GoOnAlike.refl h hinputs).responses⟩
  | command w =>
    obtain ⟨u, v, resp, hu, hv, huv⟩ := h.performWord w
    obtain ⟨huinputs, huresponses⟩ := queues_of_performWord hu
    obtain ⟨hvinputs, hvresponses⟩ := queues_of_performWord hv
    refine ⟨_, _, hu, hv, huv.of_sameBlock (.answer u resp) (.answer v resp), ?_, [resp], ?_, ?_⟩
    · exact hvinputs.trans (hinputs.trans huinputs.symm)
    · rw [State.answer_responses, huresponses]
    · rw [State.answer_responses, hvresponses]

/-! ### Steps and runs -/

theorem step_of_idle {s : State} (hc : s.cfg.Admitted) (h : s.inputs = []) : step s = .next s := by
  rw [step_of_admitted hc, takeOldest, h]

theorem step_of_pending {s : State} {e : HostEvent} {later : List HostEvent} (hc : s.cfg.Admitted)
    (h : s.inputs = e :: later) : step s = takeEvent e { s with inputs := later } := by
  rw [step_of_admitted hc, takeOldest, h]

theorem step_of_pending_reset {s : State} (hc : s.cfg.Admitted) (later : List HostEvent) :
    step { s with inputs := .reset :: later } = .next (State.afterReset { s with inputs := later }) :=
  step_of_pending (s := { s with inputs := .reset :: later }) hc rfl

/-- CLR ALL, the word 0x70000007, decodes as CLR with mask 7 (R70, R164). -/
theorem step_of_pending_clearAll {s : State} (hc : s.cfg.Admitted) (later : List HostEvent) :
    step { s with inputs := .command 0x70000007 :: later }
      = .next ((State.clear { s with inputs := later } 7).answer 0) :=
  calc step { s with inputs := .command 0x70000007 :: later }
    _ = performWord 0x70000007 { s with inputs := later } :=
      step_of_pending (s := { s with inputs := .command 0x70000007 :: later }) hc rfl
    _ = exec (.clr 7) { s with inputs := later } := issue_eq_exec (.clr 7) _
    _ = .next ((State.clear { s with inputs := later } 7).answer 0) := exec_clr 7 _

/-- The step lemma behind R221. -/
theorem HostIndistinguishable.step {s t : State} (h : HostIndistinguishable s t) (hc : s.cfg.Admitted)
    (hinputs : t.inputs = s.inputs) :
    ∃ s' t', Machine.step s = .next s' ∧ Machine.step t = .next t' ∧ GoOnAlike s t s' t' := by
  have hct : t.cfg.Admitted := h.cfg ▸ hc
  cases hq : s.inputs with
  | nil => exact ⟨s, t, step_of_idle hc hq, step_of_idle hct (hinputs.trans hq), .refl h hinputs⟩
  | cons e later =>
    rw [step_of_pending hc hq, step_of_pending hct (hinputs.trans hq)]
    obtain ⟨s', t', hs, ht, hblock, hlater, hresponses⟩ :=
      (h.of_sameBlock (.inputs s later) (.inputs t later)).takeEvent rfl e
    exact ⟨s', t', hs, ht, hblock, hlater, hresponses⟩

theorem run_succ_of_step {s t : State} (h : step s = .next t) (n : Nat) :
    Host.Core.run core (n + 1) s = Host.Core.run core n t := by
  have hcore : core.step s = .next t := h
  simp only [Host.Core.run, hcore]

/-- Along any run the host gets the same responses from two blocks it cannot tell apart (R221). -/
theorem HostIndistinguishable.run {s t : State} (h : HostIndistinguishable s t) (hc : s.cfg.Admitted)
    (hinputs : t.inputs = s.inputs) (n : Nat) :
    ∃ s' t', Host.Core.run core n s = .next s' ∧ Host.Core.run core n t = .next t' ∧ GoOnAlike s t s' t' := by
  induction n generalizing s t with
  | zero => exact ⟨s, t, rfl, rfl, .refl h hinputs⟩
  | succ n ih =>
    obtain ⟨s₁, t₁, hs, ht, hstep⟩ := h.step hc hinputs
    have hc₁ : s₁.cfg.Admitted := step_keeps_cfg hs ▸ hc
    obtain ⟨s', t', hrs, hrt, hrun⟩ := ih hstep.block hc₁ hstep.inputs
    exact ⟨s', t', (run_succ_of_step hs n).trans hrs, (run_succ_of_step ht n).trans hrt, hstep.trans hrun⟩

end Sys2Proof.Machine

namespace Sys2Proof.Proofs

open Sys2Proof Sys2Proof.Machine

/-- Settles O45: nothing of a block right after a reset or a CLR ALL may be read, so the host cannot tell the two apart,
nor can it along any run from them. -/
theorem resetAndClearAllAreIndistinguishable : Obligations.ResetAndClearAllAreIndistinguishable := by
  intro s later n hc
  have hblock : HostIndistinguishable (State.afterReset { s with inputs := later })
      ((State.clear { s with inputs := later } 7).answer 0) :=
    (indistinguishable_afterReset_clear _).of_sameBlock (.refl _) (.answer _ 0)
  obtain ⟨r', c', hr, hc', -, -, answers, hranswers, hcanswers⟩ := hblock.run hc rfl n
  exact ⟨_, _, r', c', answers, step_of_pending_reset hc later, step_of_pending_clearAll hc later,
    rfl, rfl, rfl, rfl, rfl, rfl, rfl, rfl, rfl, rfl, rfl, hr, hc', hranswers, hcanswers⟩

end Sys2Proof.Proofs

/-! The decoder and the encoder are each other's inverse, and no two rows of the opcode map meet (30_encoding.md R61 to R65). -/

namespace Sys2Proof

/-- Every command's word is read as that command. -/
theorem decode_encode : ∀ i : Instr, decode (encode i) = some i
  | .nop => Laws.RoundTrip.nop
  | .quant r g b => Laws.RoundTrip.quant r g b
  | .pushi idx => Laws.RoundTrip.pushi idx
  | .pushb byte => Laws.RoundTrip.pushb byte
  | .enc => Laws.RoundTrip.enc
  | .dec => Laws.RoundTrip.dec
  | .recon => Laws.RoundTrip.recon
  | .clr mask => Laws.RoundTrip.clr mask
  | .rdi addr => Laws.RoundTrip.rdi addr
  | .rdb addr => Laws.RoundTrip.rdb addr
  | .rdd addr => Laws.RoundTrip.rdd addr
  | .rdstat => Laws.RoundTrip.rdstat

/-- A row fixes every bit of its words outside the operand fields, so the number of such a word is the encoder's. -/
theorem encode_of_reads {w : Word} {i : Instr} (h : Reads w (some i)) : encode i = w := by
  apply BitVec.eq_of_toNat_eq
  rw [encode_toNat]
  cases h with
  | nop h | enc h | dec h | recon h | rdstat h => exact h.symm
  | quant h | pushi h | pushb h | clr h | rdi h | rdb h | rdd h =>
    simp only [field_toNat]
    omega

theorem encode_of_decode {w : Word} {i : Instr} (h : decode w = some i) : encode i = w :=
  encode_of_reads (h ▸ decode_reads w)

end Sys2Proof

namespace Sys2Proof.Proofs

open Sys2Proof Sys2Proof.Machine

/-- Settles O1: each command's word is in its row's range and carries the operands in the row's fields. -/
theorem decodeOfEncodeIsTheCommand : Obligations.DecodeOfEncodeIsTheCommand := decode_encode

/-- Settles O2: a word is read by one row of the opcode map, which leaves only the operand fields free. -/
theorem encodeOfDecodedIsTheWord : Obligations.EncodeOfDecodedIsTheWord := fun _ _ => encode_of_decode

/-- Settles O3: a row that matches a word has the word's opcode, and no two rows share an opcode. -/
theorem atMostOneRowMatches : Obligations.AtMostOneRowMatches := by
  intro w row hrow other hother hmatch hmatchOther
  have hop := row.opcode_of_matches hrow hmatch
  have hopOther := other.opcode_of_matches hother hmatchOther
  exact row_eq_of_opcode_eq other hother row hrow (hop.symm.trans hopOther)

end Sys2Proof.Proofs

/-! What every step keeps: the invariant and the host's view of the block (10_state.md R20, R32; 70_reset_and_hazards.md
R220 to R222). -/

namespace Sys2Proof.Machine

theorem State.Inv.performWord {s t : State} {w : Word} (h : s.Inv) (ht : Machine.performWord w s = .next t) : t.Inv := by
  obtain ⟨i, u, data, -, hu, hok⟩ | ⟨e, -, herr⟩ := performWord_cases w s
  · obtain rfl := Host.Outcome.next.inj (hok.symm.trans ht)
    exact (h.effect hu).of_sameBlock (.answer u _)
  · obtain rfl := Host.Outcome.next.inj (herr.symm.trans ht)
    exact h.of_sameBlock (.answer s _)

theorem State.Inv.step {s t : State} (h : s.Inv) (ht : Machine.step s = .next t) : t.Inv := by
  obtain ⟨hc, ⟨-, rfl⟩ | ⟨rest, -, rfl⟩ | ⟨w, rest, -, hw⟩⟩ := step_cases ht
  · exact h
  · exact State.Inv.afterReset hc
  · exact (h.of_sameBlock (.inputs s rest)).performWord hw

/-- A block right after reset is what a reset event makes of itself. -/
theorem State.Inv.resetWith {c : Config} (h : c.Admitted) : (State.resetWith c).Inv :=
  State.Inv.afterReset (s := State.resetWith c) h

theorem default_admitted : Config.default.Admitted := by decide

theorem Reachable.inv {s : State} (h : Reachable s) : s.Inv := by
  induction h with
  | reset hc => exact .resetWith hc
  | hostAdds e _ ih => exact ih.of_sameBlock (.inputs _ _)
  | steps _ hs ih => exact ih.step hs

end Sys2Proof.Machine

namespace Sys2Proof.Proofs

open Sys2Proof Sys2Proof.Machine

/-- Settles O47: an idle step keeps the block, a reset leaves nothing to read, and every effect of a command keeps the
invariant. -/
theorem stepKeepsTheInvariant : Obligations.StepKeepsTheInvariant := fun _ _ => State.Inv.step

/-- Settles O51: both steps take the same event, which the two blocks answer alike. -/
theorem stepKeepsIndistinguishability : Obligations.StepKeepsIndistinguishability := by
  intro s t hc h hinputs
  obtain ⟨s', t', hs, ht, hblock, hlater, answers, hsresponses, htresponses⟩ := h.step hc hinputs
  exact ⟨s', t', answers, hs, ht, hblock, hlater, step_keeps_cfg hs, hsresponses, htresponses⟩

/-- Settles O46: right after reset no entry may be read, and the default configuration is admitted. -/
theorem resetMeetsTheInvariant : Obligations.ResetMeetsTheInvariant :=
  ⟨.resetWith default_admitted, fun _ => .resetWith⟩

/-- Settles O48: a reachable state meets the invariant, which lists every entry a check lets a command read. -/
theorem reachableReadsMeetWrittenEntries : Obligations.ReachableReadsMeetWrittenEntries := by
  intro s hs
  have h := hs.inv
  simp only [Option.isSome_iff_ne_none]
  refine ⟨fun a ha => h.ibuf_written a (State.indexWritten_iff.mp ha),
    fun a ha => h.bbuf_written a (State.byteWritten_iff.mp ha),
    fun a ha hd => h.dbuf_written hd a (bitInRange_iff.mp ha), fun hcount i hi => h.ibuf_written i ?_,
    fun hcount n hn => h.bbuf_written n ?_⟩
  · rw [hcount]
    exact hi
  · rw [hcount]
    exact hn

end Sys2Proof.Proofs

/-! One step on the host's queue of pending events (20_memory.md R48; log entries 2 and 11). -/

namespace Sys2Proof.Proofs

open Sys2Proof Sys2Proof.Machine

/-- Settles O39: the step takes the oldest event, and the word is performed as the command it decodes to. -/
theorem stepRunsTheOldestCommand : Obligations.StepRunsTheOldestCommand := by
  intro s w rest i hc hq hw
  rw [step_of_pending hc hq]
  exact performWord_of_decode hw _

/-- Settles O40: the step takes the oldest event, and a word that decodes to nothing is answered with ILLEGAL. -/
theorem stepAnswersIllegalOtherwise : Obligations.StepAnswersIllegalOtherwise := by
  intro s w rest hc hq hw
  rw [step_of_pending hc hq, takeEvent, performWord_of_undecoded hw, responseWord_illegal, State.answer]

/-- Settles O41: the queue is empty, so there is no event to take. -/
theorem idleBlockKeepsItsState : Obligations.IdleBlockKeepsItsState := fun _ => step_of_idle

/-- Settles O42: the placed word is the oldest event, so a step runs the command it decodes to on the state before. -/
theorem placedWordRunsNext : Obligations.PlacedWordRunsNext := fun s w i hc hw =>
  stepRunsTheOldestCommand (s.withFetchWord 32 w) (tableWord 32 w) s.inputs i hc rfl hw

end Sys2Proof.Proofs

/-! Which command may write what, and which returns nothing (10_state.md R20; 30_encoding.md R67, R80). -/

namespace Sys2Proof.Machine

/-- The commands that are no reads return nothing: "DATA = 0" (R67), whether they answer OK or an error. -/
theorem exec_returns_nothing {i : Instr} (h : ¬ ReadOnly i) (s : State) :
    ∃ t e, exec i s = .next t ∧ t.responses = s.responses ++ [responseWord e 0] := by
  cases i with
  | nop | pushi | pushb | clr => exact ⟨_, .ok, rfl, rfl⟩
  | enc =>
    by_cases hfull : s.icnt.val = npix
    · exact ⟨_, .ok, exec_enc_of_full hfull, rfl⟩
    · exact ⟨_, .length, exec_enc_of_not_full hfull, rfl⟩
  | dec =>
    by_cases hfull : s.bcnt.val = nbyte
    · exact ⟨_, .ok, exec_dec_of_full hfull, rfl⟩
    · exact ⟨_, .length, exec_dec_of_not_full hfull, rfl⟩
  | recon =>
    cases hpresent : s.cfg.hasRecon with
    | false => exact ⟨_, .illegal, exec_recon_of_absent hpresent, rfl⟩
    | true =>
      cases hheld : s.dvalid with
      | false => exact ⟨_, .noData, exec_recon_of_not_held hpresent hheld, rfl⟩
      | true => exact ⟨_, .ok, exec_recon_of_held hpresent hheld, rfl⟩
  | quant | rdi | rdb | rdd | rdstat => simp [ReadOnly] at h

/-- Opcodes 0x0 and 0x2 to 0x7 are those of the commands that return nothing (R63). -/
theorem not_readOnly_of_opcode {w : Word} {i : Instr} (hw : decode w = some i)
    (hop : w.extractLsb' 28 4 ∈ [0x0#4, 0x2#4, 0x3#4, 0x4#4, 0x5#4, 0x6#4, 0x7#4]) : ¬ ReadOnly i := by
  have hread : Reads w (some i) := hw ▸ decode_reads w
  have hopcode : w.toNat / 2 ^ 28 ∈ [0x0, 0x2, 0x3, 0x4, 0x5, 0x6, 0x7] :=
    opcode_toNat w ▸ List.mem_map_of_mem (f := BitVec.toNat) hop
  simp only [List.mem_cons, List.not_mem_nil, or_false] at hopcode
  cases hread with
  | quant h | rdi h | rdb h | rdd h | rdstat h => omega
  | _ => simp [ReadOnly]

/-- A word with the opcode of a command that returns nothing is answered with DATA = 0: by that command, or with ILLEGAL. -/
theorem performWord_returns_nothing {w : Word}
    (hop : w.extractLsb' 28 4 ∈ [0x0#4, 0x2#4, 0x3#4, 0x4#4, 0x5#4, 0x6#4, 0x7#4]) (s : State) :
    ∃ t e, performWord w s = .next t ∧ t.responses = s.responses ++ [responseWord e 0] := by
  cases hw : decode w with
  | none => exact ⟨_, .illegal, performWord_of_undecoded hw s, rfl⟩
  | some i =>
    rw [performWord_of_decode hw]
    exact exec_returns_nothing (not_readOnly_of_opcode hw hop) s

/-- R20's column "writable by", effect by effect. -/
theorem Effect.writers {s u : State} {i : Instr} (h : Effect s i u) :
    (u.ibuf ≠ s.ibuf → (∃ idx, i = .pushi idx) ∨ i = .recon)
    ∧ (u.icnt ≠ s.icnt → (∃ idx, i = .pushi idx) ∨ i = .recon ∨ ∃ mask, i = .clr mask)
    ∧ (u.bbuf ≠ s.bbuf → (∃ byte, i = .pushb byte) ∨ i = .enc)
    ∧ (u.bcnt ≠ s.bcnt → (∃ byte, i = .pushb byte) ∨ i = .enc ∨ ∃ mask, i = .clr mask)
    ∧ (u.dbuf ≠ s.dbuf → i = .dec)
    ∧ (u.dvalid ≠ s.dvalid → i = .dec ∨ ∃ mask, i = .clr mask) := by
  cases h with
  | none => exact ⟨absurd rfl, absurd rfl, absurd rfl, absurd rfl, absurd rfl, absurd rfl⟩
  | pushi idx =>
    exact ⟨fun _ => .inl ⟨idx, rfl⟩, fun _ => .inl ⟨idx, rfl⟩, absurd rfl, absurd rfl, absurd rfl, absurd rfl⟩
  | pushb byte =>
    exact ⟨absurd rfl, absurd rfl, fun _ => .inl ⟨byte, rfl⟩, fun _ => .inl ⟨byte, rfl⟩, absurd rfl, absurd rfl⟩
  | enc => exact ⟨absurd rfl, absurd rfl, fun _ => .inr rfl, fun _ => .inr (.inl rfl), absurd rfl, absurd rfl⟩
  | dec => exact ⟨absurd rfl, absurd rfl, absurd rfl, absurd rfl, fun _ => rfl, fun _ => .inl rfl⟩
  | recon => exact ⟨fun _ => .inr rfl, fun _ => .inr (.inl rfl), absurd rfl, absurd rfl, absurd rfl, absurd rfl⟩
  | clr mask =>
    exact ⟨absurd rfl, fun _ => .inr (.inr ⟨mask, rfl⟩), absurd rfl, fun _ => .inr (.inr ⟨mask, rfl⟩), absurd rfl,
      fun _ => .inr ⟨mask, rfl⟩⟩

/-- A command's next state is its effect with one response; an error is an answer without an effect. -/
theorem exec_effect {s t : State} {i : Instr} (h : exec i s = .next t) : ∃ u resp, Effect s i u ∧ t = u.answer resp := by
  obtain ⟨u, data, hu, hok⟩ | ⟨e, -, herr⟩ := exec_cases i s
  · exact ⟨u, _, hu, Host.Outcome.next.inj (h.symm.trans hok)⟩
  · exact ⟨s, _, .none i, Host.Outcome.next.inj (h.symm.trans herr)⟩

end Sys2Proof.Machine

namespace Sys2Proof.Proofs

open Sys2Proof Sys2Proof.Machine

/-- Settles O7: a word is answered with `errorOf` its command, and with DATA = 0 where it is an error or the opcode's
command returns nothing. -/
theorem everyWordGetsOneResponse : Obligations.EveryWordGetsOneResponse := by
  intro w s
  obtain ⟨t, data, ht, hresponses, hdata⟩ := performWord_answersWith w s
  refine ⟨t, _, ht, hresponses, ?_, fun herr => ?_, fun hop => ?_⟩
  · rw [responseWord_err]
    exact Nat.le_of_lt_succ (ErrorCode.code_lt _)
  · rw [responseWord_err] at herr
    rw [responseWord_data, hdata (mt ErrorCode.code_inj.mpr herr)]
  · obtain ⟨t', e, ht', hresponses'⟩ := performWord_returns_nothing hop s
    obtain rfl := Host.Outcome.next.inj (ht.symm.trans ht')
    rw [(List.append_singleton_inj.mp (hresponses.symm.trans hresponses')).2, responseWord_data]

/-- Settles O37: a command's effect writes only what R20 names it for, and its answer writes no element of the block. -/
theorem eachElementHasItsWriters : Obligations.EachElementHasItsWriters := by
  intro i s t h
  obtain ⟨u, resp, hu, rfl⟩ := exec_effect h
  obtain ⟨hibuf, hicnt, hbbuf, hbcnt, hdbuf, hdvalid⟩ := hu.writers
  obtain ⟨hinputs, -⟩ := hu.queues_eq
  exact ⟨hibuf, hicnt, hbbuf, hbcnt, hdbuf, hdvalid, hu.cfg_eq, hinputs⟩

end Sys2Proof.Proofs

/-! The assembler's words (30_encoding.md R68). -/

namespace Sys2Proof.Machine

theorem words_command (c : AsmCommand) : (AsmLine.command c).words = c.assemble.map fun i => [encode i] := by
  rw [AsmLine.words, AsmLine.assemble, Option.map_map]
  rfl

theorem encode_eq_ofNat {i : Instr} {n : Nat} (h : (encode i).toNat = n) : encode i = BitVec.ofNat 32 n := by
  rw [← h, BitVec.ofNat_toNat, BitVec.setWidth_eq]

/-- A command of one number operand, which stands at bit 0: its word is the operand added to the word of operand 0. -/
theorem words_of_fit {width base n : Nat} {c : AsmCommand} (build : BitVec width → Instr)
    (hc : c.assemble = (fit width n).bind fun v => some (build v)) (hword : ∀ v, (encode (build v)).toNat = base + v.toNat) :
    (AsmLine.command c).words = if n < 2 ^ width then some [BitVec.ofNat 32 (base + n)] else none := by
  rw [words_command, hc, fit]
  split
  case isTrue h =>
    have hvalue : (BitVec.ofNat width n).toNat = n := Nat.mod_eq_of_lt h
    rw [Option.bind_some, Option.map_some, encode_eq_ofNat (hword _), hvalue]
  case isFalse => rfl

/-- The same with the greatest operand that fits, as R68 writes it. -/
theorem words_of_fit_le {width base n bound : Nat} {c : AsmCommand} (build : BitVec width → Instr)
    (hc : c.assemble = (fit width n).bind fun v => some (build v)) (hword : ∀ v, (encode (build v)).toNat = base + v.toNat)
    (hbound : 2 ^ width = bound + 1 := by decide) :
    (AsmLine.command c).words = if n ≤ bound then some [BitVec.ofNat 32 (base + n)] else none := by
  rw [words_of_fit build hc hword, hbound]
  exact if_congr Nat.lt_succ_iff rfl rfl

/-- QUANT with one 24-bit number has its three channels in the word's low bits. -/
theorem encode_quant24_toNat (v : BitVec 24) :
    (encode (.quant (v.extractLsb' 16 8) (v.extractLsb' 8 8) (v.extractLsb' 0 8))).toNat = 0x10000000 + v.toNat := by
  rw [encode_toNat]
  simp only [BitVec.extractLsb'_toNat, Nat.shiftRight_eq_div_pow]
  omega

theorem fit_of_lt {width n : Nat} (h : n < 2 ^ width) : fit width n = some (BitVec.ofNat width n) := if_pos h

theorem fit_of_not_lt {width n : Nat} (h : ¬ n < 2 ^ width) : fit width n = none := if_neg h

theorem encode_quant_ofNat {r g b : Nat} (hr : r < 2 ^ 8) (hg : g < 2 ^ 8) (hb : b < 2 ^ 8) :
    encode (.quant (BitVec.ofNat 8 r) (BitVec.ofNat 8 g) (BitVec.ofNat 8 b))
      = BitVec.ofNat 32 (0x10000000 + r * 2 ^ 16 + g * 2 ^ 8 + b) := by
  apply encode_eq_ofNat
  simp only [encode_toNat, BitVec.toNat_ofNat]
  omega

/-- QUANT with three numbers is refused as soon as one of them does not fit its channel. -/
theorem words_quant (r g b : Nat) : (AsmLine.command (.quant r g b)).words
    = if r ≤ 255 ∧ g ≤ 255 ∧ b ≤ 255 then some [BitVec.ofNat 32 (0x10000000 + r * 2 ^ 16 + g * 2 ^ 8 + b)]
      else none := by
  rw [words_command, AsmCommand.assemble]
  split
  case isTrue h =>
    obtain ⟨hr, hg, hb⟩ : r < 2 ^ 8 ∧ g < 2 ^ 8 ∧ b < 2 ^ 8 := by omega
    rw [fit_of_lt hr, fit_of_lt hg, fit_of_lt hb, ← encode_quant_ofNat hr hg hb]
    rfl
  case isFalse h =>
    obtain hr | hg | hb : ¬ r < 2 ^ 8 ∨ ¬ g < 2 ^ 8 ∨ ¬ b < 2 ^ 8 := by omega
    · simp [fit_of_not_lt hr]
    · simp [fit_of_not_lt hg]
    · simp [fit_of_not_lt hb]

end Sys2Proof.Machine

namespace Sys2Proof.Proofs

open Sys2Proof Sys2Proof.Machine

/-- Settles O49: each number operand is refused unless it fits its field, and then it is the low end of the word. -/
theorem assemblerEncodesWhatFits : Obligations.AssemblerEncodesWhatFits :=
  ⟨words_quant, fun _ => words_of_fit _ rfl encode_quant24_toNat,
    fun _ => words_of_fit_le .pushi rfl fun _ => encode_toNat _, fun _ => words_of_fit_le .pushb rfl fun _ => encode_toNat _,
    fun _ => words_of_fit_le .clr rfl fun _ => encode_toNat _, fun _ => words_of_fit_le .rdi rfl fun _ => encode_toNat _,
    fun _ => words_of_fit_le .rdb rfl fun _ => encode_toNat _, fun _ => words_of_fit_le .rdd rfl fun _ => encode_toNat _,
    rfl, rfl, rfl, rfl, rfl⟩

end Sys2Proof.Proofs

/-! What reset leaves (70_reset_and_hazards.md R220). -/

namespace Sys2Proof.Machine

/-- With counters and flag 0 the status word holds the configuration's two bits only (R31, R220). -/
theorem statusWord_of_cleared {t : State} (hicnt : t.icnt = 0) (hbcnt : t.bcnt = 0) (hdvalid : t.dvalid = false) :
    (statusWord t).extractLsb' 0 23 = 0 ∧ (statusWord t).extractLsb' 25 3 = 0
      ∧ (statusWord t).getLsbD 23 = t.cfg.hasRecon
      ∧ (statusWord t).getLsbD 24 = decide (t.cfg.refMode = .replicated) := by
  rw [statusWord, hicnt, hbcnt, hdvalid]
  generalize t.cfg.hasRecon = recon
  generalize t.cfg.refMode = mode
  cases recon <;> cases mode <;> decide

end Sys2Proof.Machine

namespace Sys2Proof.Proofs

open Sys2Proof Sys2Proof.Machine

/-- Settles O44: a reset event gives the block `State.resetWith`, where no count, flag or entry passes a check. -/
theorem resetStateIsAsStated : Obligations.ResetStateIsAsStated := by
  refine ⟨fun s hc rest hq => ⟨_, step_of_pending hc hq, ⟨rfl, rfl, rfl, rfl, rfl, rfl, rfl⟩, rfl, rfl⟩, ?_⟩
  rintro s t ⟨hcfg, hibuf, hicnt, hbbuf, hbcnt, hdbuf, hdvalid⟩
  replace hcfg : t.cfg = s.cfg := hcfg
  replace hicnt : t.icnt = 0 := hicnt
  replace hbcnt : t.bcnt = 0 := hbcnt
  replace hdvalid : t.dvalid = false := hdvalid
  refine ⟨hcfg, hicnt, hbcnt, hdvalid, hibuf ▸ fun _ => rfl, hbbuf ▸ fun _ => rfl, hdbuf ▸ fun _ => rfl,
    fun a => exec_rdi_of_not_written ?_, fun a => ?_, fun a => ?_, ?_, ?_, ?_,
    hcfg ▸ statusWord_of_cleared hicnt hbcnt hdvalid⟩
  · simp [hicnt]
  · split
    case isTrue h => exact exec_rdb_of_out_of_range h
    case isFalse h => exact exec_rdb_of_not_written (Nat.not_le.mp h) (by simp [hbcnt])
  · split
    case isTrue h => exact exec_rdd_of_out_of_range h
    case isFalse h => exact exec_rdd_of_not_held (Nat.not_le.mp h) hdvalid
  · rw [exec_enc_of_not_full (by simp [hicnt]), responseWord_length, State.answer]
  · rw [exec_dec_of_not_full (by simp [hbcnt]), responseWord_length, State.answer]
  · split
    case isTrue h => rw [exec_recon_of_not_held (hcfg ▸ h) hdvalid, responseWord_noData, State.answer]
    case isFalse h => rw [exec_recon_of_absent (hcfg ▸ eq_false_of_ne_true h), responseWord_illegal, State.answer]

end Sys2Proof.Proofs

/-! The host's procedures: lists of commands, an image to bytes and bytes to bits (43_host_interface.md R181, R182). -/

namespace Sys2Proof.Machine

/-! ### Commands issued one after another -/

/-- Actions of a host in a row: what holds after the first `n` of them holds after all. -/
theorem foldl_andThen_induction {α : Type} {act : α → State → Result} (P : Nat → State → Prop) (as : List α) {s : State}
    (hstart : P 0 s) (hact : ∀ n (hn : n < as.length) (u : State), P n u → ∃ v, act as[n] u = .next v ∧ P (n + 1) v) :
    ∃ t, as.foldl (fun r a => Result.andThen r (act a)) (.next s) = .next t ∧ P as.length t := by
  induction as generalizing P s with
  | nil => exact ⟨s, rfl, hstart⟩
  | cons a as ih =>
    obtain ⟨v, hv, hP⟩ := hact 0 (Nat.zero_lt_succ _) s hstart
    obtain ⟨t, ht, hPt⟩ := ih (fun n => P (n + 1)) hP fun n hn => hact (n + 1) (Nat.succ_lt_succ hn)
    refine ⟨t, ?_, hPt⟩
    rw [List.foldl_cons, Result.andThen_next]
    exact hv.symm ▸ ht

theorem issueAll_append {is js : List Instr} {s t : State} (h : issueAll is s = .next t) :
    issueAll (is ++ js) s = issueAll js t := by
  rw [issueAll, List.foldl_append]
  exact congrArg (List.foldl _ · js) h

/-! ### Pushes -/

/-- A counter and a buffer of `size` entries after `n` pushes of `value 0`, `value 1`, … from a count of 0: the count
saturates, and the first entries are the pushed values in order (R23 to R26). -/
def Filled {α : Type} (size : Nat) (count : Counter) (entry : Nat → α) (value : Nat → α) (n : Nat) : Prop :=
  count.val = min n 2047 ∧ ∀ a < min n size, entry a = value a

theorem Filled.of_zero {α : Type} {size : Nat} {count : Counter} {entry value : Nat → α} (h : count.val = 0) :
    Filled size count entry value 0 := by
  refine ⟨h, fun a ha => ?_⟩
  omega

/-- One push more: it writes at the count where there is room, and a buffer has room only below saturation. -/
theorem Filled.push {α : Type} {size : Nat} {count : Counter} {entry entry' value : Nat → α} {n : Nat}
    (h : Filled size count entry value n) (hsize : size ≤ 2047)
    (hpush : ∀ a, entry' a = if count.val < size ∧ a = count.val then value n else entry a) :
    Filled size (bump count) entry' value (n + 1) := by
  obtain ⟨hcount, hentries⟩ := h
  constructor
  · rw [bump_val]
    omega
  · intro a ha
    rw [hpush]
    split
    case isTrue hnew =>
      have han : a = n := by omega
      rw [han]
    case isFalse hold => exact hentries a (by omega)

theorem Filled.pushIndex {s : State} {value : Nat → PaletteIndex} {n : Nat} (h : Filled npix s.icnt s.index value n) :
    Filled npix (s.pushIndex (value n)).icnt (s.pushIndex (value n)).index value (n + 1) :=
  h.push (by decide) (s.pushIndex_indexEntry (value n))

theorem Filled.pushByte {s : State} {value : Nat → Byte} {n : Nat} (h : Filled nbyte s.bcnt s.byte value n) :
    Filled nbyte (s.pushByte (value n)).bcnt (s.pushByte (value n)).byte value (n + 1) :=
  h.push (by decide) (s.pushByte_byteEntry (value n))

theorem issueAll_pushi (ps : List PaletteIndex) {s : State} (h : s.icnt.val = 0) :
    ∃ t, issueAll (ps.map Instr.pushi) s = .next t ∧ Filled npix t.icnt t.index (ps.getD · 0) ps.length := by
  have hfold := foldl_andThen_induction (act := issue) (fun n u => Filled npix u.icnt u.index (ps.getD · 0) n)
    (ps.map Instr.pushi) (.of_zero h) fun n hn u hu => by
      have hlt : n < ps.length := ps.length_map Instr.pushi ▸ hn
      refine ⟨(u.pushIndex (ps.getD n 0)).answer 0, ?_, hu.pushIndex⟩
      rw [List.getElem_map, issue_eq_exec, exec_pushi, List.getD_eq_getElem ps 0 hlt]
  rwa [List.length_map] at hfold

theorem issueAll_pushb (bs : List Byte) {s : State} (h : s.bcnt.val = 0) :
    ∃ t, issueAll (bs.map Instr.pushb) s = .next t ∧ Filled nbyte t.bcnt t.byte (bs.getD · 0) bs.length := by
  have hfold := foldl_andThen_induction (act := issue) (fun n u => Filled nbyte u.bcnt u.byte (bs.getD · 0) n)
    (bs.map Instr.pushb) (.of_zero h) fun n hn u hu => by
      have hlt : n < bs.length := bs.length_map Instr.pushb ▸ hn
      refine ⟨(u.pushByte (bs.getD n 0)).answer 0, ?_, hu.pushByte⟩
      rw [List.getElem_map, issue_eq_exec, exec_pushb, List.getD_eq_getElem bs 0 hlt]
  rwa [List.length_map] at hfold

/-! ### Reads -/

theorem SameBlock.trans {s t u : State} (h : SameBlock s t) (h' : SameBlock t u) : SameBlock s u :=
  ⟨h'.cfg.trans h.cfg, h'.ibuf.trans h.ibuf, h'.icnt.trans h.icnt, h'.bbuf.trans h.bbuf, h'.bcnt.trans h.bcnt,
    h'.dbuf.trans h.dbuf, h'.dvalid.trans h.dvalid⟩

theorem SameBlock.index_eq {s t : State} (h : SameBlock s t) (i : Nat) : t.index i = s.index i := by
  rw [State.index, State.index, h.ibuf]

theorem SameBlock.byte_eq {s t : State} (h : SameBlock s t) (n : Nat) : t.byte n = s.byte n := by
  rw [State.byte, State.byte, h.bbuf]

theorem SameBlock.bit_eq {s t : State} (h : SameBlock s t) (j : Nat) : t.bit j = s.bit j := by
  rw [State.bit, State.bit, h.dbuf]

/-- Reads that this block answers with `resp 0`, `resp 1`, … leave the block and add these responses in order. -/
theorem issueAll_reads {count : Nat} {read : Nat → Instr} {resp : Nat → Word} {s : State}
    (h : ∀ n < count, ∀ u, SameBlock s u → exec (read n) u = .next (u.answer (resp n))) :
    ∃ t, issueAll ((List.range count).map read) s = .next t ∧ SameBlock s t
      ∧ t.responses = s.responses ++ (List.range count).map resp := by
  have hfold := foldl_andThen_induction (act := issue)
    (fun n u => SameBlock s u ∧ u.responses = s.responses ++ (List.range n).map resp)
    ((List.range count).map read) ⟨.refl s, (List.append_nil _).symm⟩ fun n hn u ⟨hblock, hresponses⟩ => by
      have hlt : n < count := by simpa using hn
      refine ⟨u.answer (resp n), ?_, hblock.trans (.answer u _), ?_⟩
      · rw [List.getElem_map, List.getElem_range, issue_eq_exec, h n hlt u hblock]
      · rw [State.answer_responses, hresponses, List.range_succ, List.map_append, List.append_assoc, List.map_singleton]
  rwa [List.length_map, List.length_range] at hfold

/-- RDB 0, RDB 1, … on a full byte buffer. -/
theorem issueAll_rdb {s : State} (h : s.bcnt.val = nbyte) :
    ∃ t, issueAll ((List.range 384).map fun n => .rdb (BitVec.ofNat 9 n)) s = .next t ∧ SameBlock s t
      ∧ t.responses = s.responses ++ (List.range 384).map fun n => 0#24 ++ s.byte n := by
  refine issueAll_reads fun n hn u hu => ?_
  have haddr : (BitVec.ofNat 9 n).toNat = n := Nat.mod_eq_of_lt (by omega)
  have hcount : u.bcnt.val = nbyte := hu.bcnt ▸ h
  rw [exec_rdb_of_written (by rw [haddr, hcount]; exact hn), haddr, hu.byte_eq]

/-- RDD 0, RDD 1, … on DEC output. -/
theorem issueAll_rdd {s : State} (h : s.dvalid = true) :
    ∃ t, issueAll ((List.range 3072).map fun j => .rdd (BitVec.ofNat 12 j)) s = .next t ∧ SameBlock s t
      ∧ t.responses = s.responses ++ (List.range 3072).map fun j => 0#31 ++ s.bit j := by
  refine issueAll_reads fun j hj u hu => ?_
  have haddr : (BitVec.ofNat 12 j).toNat = j := Nat.mod_eq_of_lt (by omega)
  rw [exec_rdd_of_held (by rw [haddr]; exact hj) (hu.dvalid ▸ h), haddr, hu.bit_eq]

/-- The last responses are those just added. -/
theorem drop_responses {before added : List Word} {count : Nat} (h : added.length = count) :
    (before ++ added).drop ((before ++ added).length - count) = added :=
  List.drop_left' (by rw [List.length_append, h, Nat.add_sub_cancel])

/-! ### One grid position and the frame -/

/-- The index the host loads for grid position (x, y): black outside the image, else the nearest to the pixel (R181). -/
def gridIndex (c : Config) (img : Image) (x y : Nat) : PaletteIndex :=
  if img.width ≤ x ∨ img.height ≤ y then Colour.black.index
  else nearest c (img.pixel x y).r (img.pixel x y).g (img.pixel x y).b

/-- The index the host loads for pixel i of the frame, in the order of R180. -/
def frameIndex (c : Config) (img : Image) (i : Nat) : PaletteIndex := gridIndex c img (pixelColumn i) (pixelRow i)

/-- For the block, the host's part for a grid position is one push: QUANT changes nothing and answers the index. -/
theorem pushPixel_eq (img : Image) (x y : Nat) (s : State) :
    ∃ t, pushPixel img x y s = .next t ∧ SameBlock (s.pushIndex (gridIndex s.cfg img x y)) t := by
  rw [pushPixel, gridIndex]
  split
  case isTrue =>
    rw [issue_eq_exec, exec_pushi]
    exact ⟨_, rfl, .answer _ _⟩
  case isFalse =>
    have hquant (p : PaletteIndex) : (lastData (s.answer (responseWord .ok (p.setWidth 28)))).setWidth 3 = p := by
      rw [lastData_answer, BitVec.setWidth_setWidth_of_le _ (by decide), BitVec.setWidth_eq]
    rw [issue_eq_exec, exec, execQuant, respond_eq, Result.andThen_next, hquant, issue_eq_exec, exec_pushi]
    exact ⟨_, rfl, rfl, rfl, rfl, rfl, rfl, rfl, rfl⟩

/-- The frame from an empty index buffer: one index for each grid position, in index order. -/
theorem pushFrame_eq (img : Image) {s : State} (h : s.icnt.val = 0) :
    ∃ t, pushFrame img s = .next t ∧ t.cfg = s.cfg ∧ Filled npix t.icnt t.index (frameIndex s.cfg img) 1024 := by
  rw [pushFrame, gridOrder_eq]
  have hfold := foldl_andThen_induction (act := fun xy : Nat × Nat => pushPixel img xy.1 xy.2)
    (fun n u => u.cfg = s.cfg ∧ Filled npix u.icnt u.index (frameIndex s.cfg img) n)
    ((List.range 1024).map fun i => (i / 16, i % 16)) ⟨rfl, .of_zero h⟩ fun n hn u ⟨hcfg, hfilled⟩ => by
      obtain ⟨t, ht, hblock⟩ := pushPixel_eq img (n / 16) (n % 16) u
      rw [hcfg] at hblock
      refine ⟨t, ?_, hblock.cfg.trans hcfg, ?_⟩
      · rw [List.getElem_map, List.getElem_range]
        exact ht
      · rw [hblock.icnt, funext hblock.index_eq]
        exact hfilled.pushIndex
  rwa [List.length_map, List.length_range] at hfold

/-! ### The bytes of an image -/

theorem setWidth_responseDataOf_byte (byte : Byte) : (responseDataOf (0#24 ++ byte)).setWidth 8 = byte := by
  apply BitVec.eq_of_toNat_eq
  rw [BitVec.toNat_setWidth, responseDataOf, field_toNat, toNat_append_eq_add, BitVec.toNat_zero]
  omega

theorem graffitiData_eq {t : State} {before : List Word} {byte : Nat → Byte}
    (h : t.responses = before ++ (List.range 384).map fun n => 0#24 ++ byte n) :
    graffitiData t = (List.range 384).map byte := by
  rw [graffitiData, h, drop_responses (by rw [List.length_map, List.length_range]), List.map_map]
  exact List.map_congr_left fun n _ => setWidth_responseDataOf_byte (byte n)

theorem getD_map_range {α : Type} (f : Nat → α) (d : α) {count n : Nat} (h : n < count) :
    ((List.range count).map f).getD n d = f n := by
  rw [List.getD_eq_getElem _ _ (by rwa [List.length_map, List.length_range]), List.getElem_map, List.getElem_range]

/-- The frame pushed, ENC and the reads: the bytes read back are those ENC packs from the frame. -/
theorem encodeImage_eq (img : Image) (s : State) :
    ∃ t u v, encodeImage img s = .next t ∧ exec .enc u = .next v ∧ u.cfg = s.cfg
      ∧ Filled npix u.icnt u.index (frameIndex s.cfg img) 1024 ∧ SameBlock v t
      ∧ graffitiData t = (List.range 384).map v.byte := by
  obtain ⟨u, hu, hcfg, hfilled⟩ := pushFrame_eq img (s := (s.clear 7).answer 0) rfl
  obtain ⟨hcount, -⟩ := id hfilled
  have henc := exec_enc_of_full hcount
  obtain ⟨t, ht, hblock, hresponses⟩ := issueAll_rdb (s := u.encoded.answer (responseWord .ok 0)) rfl
  refine ⟨t, u, _, ?_, henc, hcfg, hfilled, hblock, graffitiData_eq hresponses⟩
  rw [encodeImage, issue_eq_exec, exec_clr, Result.andThen_next, hu, Result.andThen_next, issue_eq_exec, henc,
    Result.andThen_next, ht]

end Sys2Proof.Machine

namespace Sys2Proof.Proofs

open Sys2Proof Sys2Proof.Machine

/-- Settles O22: each push writes the next entry while there is room and advances the count until it saturates. -/
theorem pushesFillTheIndexBuffer : Obligations.PushesFillTheIndexBuffer := by
  intro ps s h
  obtain ⟨t, ht, hcount, hentries⟩ := issueAll_pushi ps h
  refine ⟨t, ht, hcount, fun i hi hroom => ?_⟩
  exact (hentries i (lt_min hi hroom)).trans (List.getD_eq_getElem ps 0 hi)

/-- Settles O23: each push writes the next entry while there is room and advances the count until it saturates. -/
theorem pushesFillTheByteBuffer : Obligations.PushesFillTheByteBuffer := by
  intro bs s h
  obtain ⟨t, ht, hcount, hentries⟩ := issueAll_pushb bs h
  refine ⟨t, ht, hcount, fun n hn hroom => ?_⟩
  exact (hentries n (lt_min hn hroom)).trans (List.getD_eq_getElem bs 0 hn)

/-- Settles O30: the host's part for a grid position is one push of the index the position has. -/
theorem pushPixelWritesBlackOutside : Obligations.PushPixelWritesBlackOutside := by
  intro img x y s hroom
  obtain ⟨t, ht, hblock⟩ := pushPixel_eq img x y s
  refine ⟨t, ht, ?_, ?_, fun a ha => ?_, hblock.cfg⟩
  · rw [hblock.icnt, State.pushIndex_icnt, bump_val_of_lt (by omega)]
  · rw [hblock.index_eq, State.pushIndex_indexEntry, if_pos ⟨hroom, rfl⟩, gridIndex]
  · rw [hblock.index_eq, State.pushIndex_indexEntry, if_neg fun h => ha h.2]

/-- Settles O31: the frame fills the index buffer in index order, and ENC places the bits of pixel 16x + y. -/
theorem imageProcedureYieldsThePackedFrame : Obligations.ImageProcedureYieldsThePackedFrame := by
  intro img s
  obtain ⟨t, u, v, ht, henc, hcfg, ⟨hcount, hentries⟩, hblock, hdata⟩ := encodeImage_eq img s
  obtain ⟨-, -, hplaces⟩ := encPlacesEachPixel u v hcount henc
  obtain ⟨-, hgrid, -⟩ := pixelOrderIsColumnMajor
  obtain rfl := Host.Outcome.next.inj ((exec_enc_of_full hcount).symm.trans henc)
  refine ⟨t, ht, ?_, ?_, fun x hx y hy => ?_⟩
  · rw [hblock.icnt]
    exact hcount
  · rw [hdata, List.length_map, List.length_range]
  · obtain ⟨hpixel, hcolumn, hrow⟩ := hgrid x hx y hy
    have hindex : t.index (pixelIndex x y) = u.index (pixelIndex x y) := hblock.index_eq _
    refine ⟨?_, fun k hk => ?_⟩
    · rw [hindex, hentries _ hpixel, frameIndex, hcolumn, hrow, gridIndex]
    · rw [hdata, getD_map_range _ _ (by omega), hplaces x hx y hy k hk, hindex, hcfg]

/-- Settles O32: the pushes fill the byte buffer, DEC extracts its stream, and each RDD reads one bit of it. -/
theorem bytesProcedureYieldsTheBits : Obligations.BytesProcedureYieldsTheBits := by
  intro bytes s hlength
  obtain ⟨u, hu, hcount, hentries⟩ := issueAll_pushb bytes (s := (s.clear 0b110).answer 0) rfl
  rw [hlength] at hcount hentries
  have hdec := exec_dec_of_full hcount
  obtain ⟨t, ht, -, hresponses⟩ := issueAll_rdd (s := u.decoded.answer (responseWord .ok 0)) rfl
  refine ⟨t, ?_, ?_⟩
  · rw [decodeBytes, List.cons_append, issueAll_cons ((issue_eq_exec _ s).trans (exec_clr _ s)), issueAll_append hu,
      issueAll_cons ((issue_eq_exec _ u).trans hdec), ht]
  · rw [hresponses, drop_responses (by rw [List.length_map, List.length_range])]
    apply List.map_congr_left
    intro j hj
    have hlt : j < 3072 := List.mem_range.mp hj
    have hbyte : j / 8 < 384 := by omega
    rw [State.answer_bit, State.decoded_bitEntry hlt, extractedBit, hentries _ (lt_min hbyte hbyte)]

end Sys2Proof.Proofs
